-- ==== Sys2Proof/Word.lean ====
section
/-! DEFINITION. The widths of the block's values: 00_scope.md rule R6 and 30_encoding.md rule R51. -/

namespace Sys2Proof

/-- A `u8` or `s8`: a volume, a wavetable entry, a sample, a PCM byte (R6). -/
abbrev Byte := BitVec 8

/-- A `u16`: a phase or an unsigned 8.8 phase step (R6 `PHASE_W`, `STEP_W`). -/
abbrev Half := BitVec 16

/-- A `u32`: a frequency in centi-hertz, a sample rate, a duration count, response data (R6 `FREQ_W`, `SR_W`, `DUR_W`). -/
abbrev Word := BitVec 32

/-- A command word `CW[95:0]`, lanes `W2_W1_W0` with `W2` most significant (R51). -/
abbrev CommandWord := BitVec 96

/-- The wavetable ROM as a table over its 10-bit address `{wave, index}` (20_memory.md R30): 1024 bytes, every address valid. -/
abbrev Rom := BitVec 10 → Byte

end Sys2Proof
end

