-- ==== Sys2Proof/Config.lean ====
section
/-! DEFINITION. What is fixed for one machine and what the spec leaves open (00_scope.md R6): the open values are opaque constants
with no body, so no proof can see what they are and every claim holds whatever they are. -/

namespace Sys2Proof.Config

/-- `WT` (20_memory.md R32, decision D11): the contents of the wavetable ROM. OPEN: the source gives no entry value and no rule assumes
anything of them. Log 6. -/
opaque wt : Rom

/-- The sample rate less 1: any value of 0 to 2^32 - 2, so that the rate itself is any legal value. Log 5. -/
opaque sampleRateLessOne : Fin 4294967295

/-- `SAMPLE_RATE` (00_scope.md R6): the value on `cfg_sample_rate` at the reset a run starts from. OPEN, and at least 1 by R131. Log 5. -/
def sampleRate : Word := BitVec.ofNat 32 (sampleRateLessOne.val + 1)

/-- The quotient of a dividend by a zero `SR` in `phase_step`. The spec gives none (R131: "every `PLAY*` would divide by zero"); no run
reaches a zero `SR`. Free: any function of the dividend. Log 8. -/
opaque quotientByRateZero : Word → Word

/-- `NUM_NOTES` (R6, decision D10): entries of the note table, rest included. -/
def numNotes : Nat := 109

end Sys2Proof.Config
end

