-- ==== Sys2Proof/Syntax.lean ====
section
/-! DEFINITION. The seven commands as syntax: one constructor per row of spec/opcode_table.json (30_encoding.md R55), operands in the
order of the command text (R61). -/

namespace Sys2Proof

/-- A channel id (10_state.md R12): "Always a member of the closed enumeration; never an unchecked integer". -/
inductive Channel where
  | ch0
  | ch1
  | ch2
  | ch3
deriving DecidableEq, Repr

/-- A waveform tag (10_state.md R17): the closed set that selects one of the four tables, values 0 to 3 in this order (decision D6). -/
inductive Waveform where
  | sine
  | sawtooth
  | square
  | noise
deriving DecidableEq, Repr

/-- A command. A duration is in samples, a frequency in centi-hertz; a note index is 7 bits wide and legal up to 108 (`Instr.wellFormed`). -/
inductive Instr where
  /-- `PLAYF ch, chz, vol, wave` (42_control_commands.md R91). -/
  | playf (ch : Channel) (chz : Word) (vol : Byte) (wave : Waveform)
  /-- `PLAYFD ch, chz, dur, vol, wave` (R92). -/
  | playfd (ch : Channel) (chz : Word) (dur : Word) (vol : Byte) (wave : Waveform)
  /-- `PLAYN ch, note, vol, wave` (R93). -/
  | playn (ch : Channel) (note : BitVec 7) (vol : Byte) (wave : Waveform)
  /-- `PLAYND ch, note, dur, vol, wave` (R94). -/
  | playnd (ch : Channel) (note : BitVec 7) (dur : Word) (vol : Byte) (wave : Waveform)
  /-- `OFF ch` (R95). -/
  | off (ch : Channel)
  /-- `NEXT` (43_next_downmix.md R100). -/
  | next
  /-- `RDSR` (42_control_commands.md R96). -/
  | rdsr
deriving DecidableEq, Repr

/-- The row's mnemonic in spec/opcode_table.json. -/
def Instr.mnemonic : Instr → String
  | .playf _ _ _ _ => "PLAYF"
  | .playfd _ _ _ _ _ => "PLAYFD"
  | .playn _ _ _ _ => "PLAYN"
  | .playnd _ _ _ _ _ => "PLAYND"
  | .off _ => "OFF"
  | .next => "NEXT"
  | .rdsr => "RDSR"

end Sys2Proof
end

