-- ==== Sys2Proof/WellFormed.lean ====
section
/-! DEFINITION. Which commands a legal word can carry. The only operand with an illegal value is a note index (30_encoding.md R59);
channel, waveform, volume, frequency and duration are legal at every value (R57). -/

namespace Sys2Proof

/-- A note index names an entry of the note table: 0 to 108 (20_memory.md R33, 30_encoding.md R59). -/
def noteInTable (k : BitVec 7) : Bool := decide (k.toNat < Config.numNotes)

/-- The command can be carried by a legal word. -/
def Instr.wellFormed : Instr → Bool
  | .playf _ _ _ _ => true
  | .playfd _ _ _ _ _ => true
  | .playn _ note _ _ => noteInTable note
  | .playnd _ note _ _ _ => noteInTable note
  | .off _ => true
  | .next => true
  | .rdsr => true

end Sys2Proof
end

