-- ==== Sys2Proof/Decode.lean ====
section
/-! DEFINITION. The command decoder of 30_encoding.md R56, total on all 2^96 words and rejecting by name, then the encoder, the opcode
map of R55 as rows, and the numbering the host's table uses (bit 0 is bit 0 of `W0`). -/

namespace Sys2Proof

/-! ### Fields of a command word (R51) -/

/-- `op`, CW[3:0]. -/
def fieldOp (cw : CommandWord) : BitVec 4 := cw.extractLsb' 0 4
/-- `ch`, CW[5:4]. -/
def fieldCh (cw : CommandWord) : BitVec 2 := cw.extractLsb' 4 2
/-- `wave`, CW[7:6]. -/
def fieldWave (cw : CommandWord) : BitVec 2 := cw.extractLsb' 6 2
/-- `fsel`, CW[8]. -/
def fieldFsel (cw : CommandWord) : BitVec 1 := cw.extractLsb' 8 1
/-- `dur_en`, CW[9]. -/
def fieldDurEn (cw : CommandWord) : BitVec 1 := cw.extractLsb' 9 1
/-- `rsv0`, CW[15:10]. -/
def fieldRsv0 (cw : CommandWord) : BitVec 6 := cw.extractLsb' 10 6
/-- `vol`, CW[23:16]. -/
def fieldVol (cw : CommandWord) : Byte := cw.extractLsb' 16 8
/-- `rsv1`, CW[31:24]. -/
def fieldRsv1 (cw : CommandWord) : BitVec 8 := cw.extractLsb' 24 8
/-- `fval` as a frequency, CW[63:32]. -/
def fieldFval (cw : CommandWord) : Word := cw.extractLsb' 32 32
/-- `fval` as a note index, CW[38:32]. -/
def fieldNote (cw : CommandWord) : BitVec 7 := cw.extractLsb' 32 7
/-- The bits of `fval` above a note index, CW[63:39]. -/
def fieldFvalHigh (cw : CommandWord) : BitVec 25 := cw.extractLsb' 39 25
/-- `dur`, CW[95:64]. -/
def fieldDur (cw : CommandWord) : Word := cw.extractLsb' 64 32

/-! ### Tags (10_state.md R12, R17) -/

/-- The 2-bit channel id. -/
def Channel.id : Channel → BitVec 2
  | .ch0 => 0
  | .ch1 => 1
  | .ch2 => 2
  | .ch3 => 3

/-- The channel of a 2-bit id: every id names one. -/
def channelOf (b : BitVec 2) : Channel :=
  if b = 0 then .ch0 else if b = 1 then .ch1 else if b = 2 then .ch2 else .ch3

/-- The 2-bit waveform tag (decision D6). -/
def Waveform.tag : Waveform → BitVec 2
  | .sine => 0
  | .sawtooth => 1
  | .square => 2
  | .noise => 3

/-- The waveform of a 2-bit tag: every tag names one. -/
def waveformOf (b : BitVec 2) : Waveform :=
  if b = 0 then .sine else if b = 1 then .sawtooth else if b = 2 then .square else .noise

/-! ### Decoding (R56) -/

/-- Why a word is illegal: the cases of R57. The hardware reports none of them (60_exceptions.md R114). -/
inductive IllegalReason where
  /-- R57 a: `op` is 0 or 5 to 15. -/
  | opcode
  /-- R57 b: `rsv0` or `rsv1` is non-zero. -/
  | reservedBits
  /-- R57 c: PLAY with `dur_en` 0 and a non-zero `dur`. -/
  | durationNotEnabled
  /-- R57 d: PLAY of a note with W1[31:7] non-zero. -/
  | noteHighBits
  /-- R57 e: PLAY of a note index 109 to 127. -/
  | noteIndex
  /-- R57 f: OFF with an unused field non-zero. -/
  | offUnusedField
  /-- R57 g: NEXT or RDSR with any other bit non-zero. -/
  | otherBits
deriving DecidableEq, Repr

/-- Arm 1 of R56: the four PLAY encodings by `fsel` and `dur_en`. -/
def decodePlay (cw : CommandWord) : Except IllegalReason Instr :=
  let ch := channelOf (fieldCh cw)
  let wave := waveformOf (fieldWave cw)
  if fieldDurEn cw = 0 ∧ fieldDur cw ≠ 0 then .error .durationNotEnabled
  else if fieldFsel cw = 1 ∧ fieldFvalHigh cw ≠ 0 then .error .noteHighBits
  else if fieldFsel cw = 1 ∧ noteInTable (fieldNote cw) = false then .error .noteIndex
  else if fieldFsel cw = 0 then
    if fieldDurEn cw = 0 then .ok (.playf ch (fieldFval cw) (fieldVol cw) wave)
    else .ok (.playfd ch (fieldFval cw) (fieldDur cw) (fieldVol cw) wave)
  else
    if fieldDurEn cw = 0 then .ok (.playn ch (fieldNote cw) (fieldVol cw) wave)
    else .ok (.playnd ch (fieldNote cw) (fieldDur cw) (fieldVol cw) wave)

/-- Arm 2 of R56: OFF, whose fields other than `op` and `ch` are zero. -/
def decodeOff (cw : CommandWord) : Except IllegalReason Instr :=
  if fieldWave cw ≠ 0 ∨ fieldFsel cw ≠ 0 ∨ fieldDurEn cw ≠ 0 ∨ fieldVol cw ≠ 0 ∨ fieldFval cw ≠ 0 ∨ fieldDur cw ≠ 0 then
    .error .offUnusedField
  else .ok (.off (channelOf (fieldCh cw)))

/-- Arms 3 and 4 of R56: the whole word is the opcode. -/
def decodeBare (cw : CommandWord) (op : CommandWord) (i : Instr) : Except IllegalReason Instr :=
  if cw = op then .ok i else .error .otherBits

/-- The decoder of R56. -/
def decode (cw : CommandWord) : Except IllegalReason Instr :=
  if fieldRsv0 cw ≠ 0 ∨ fieldRsv1 cw ≠ 0 then .error .reservedBits
  else if fieldOp cw = 1 then decodePlay cw
  else if fieldOp cw = 2 then decodeOff cw
  else if fieldOp cw = 3 then decodeBare cw 3 .next
  else if fieldOp cw = 4 then decodeBare cw 4 .rdsr
  else .error .opcode

/-! ### Encoding (R51, R55) -/

/-- A command word from its fields, reserved fields zero (R51). -/
def packWord (op : BitVec 4) (ch wave : BitVec 2) (fsel durEn : BitVec 1) (vol : Byte) (fval dur : Word) : CommandWord :=
  (dur ++ fval ++ (0 : BitVec 8) ++ vol ++ (0 : BitVec 6) ++ durEn ++ fsel ++ wave ++ ch ++ op).cast rfl

/-- The word of a command: the row of R55 with its operands in their fields, everything else zero (R53). -/
def encode : Instr → CommandWord
  | .playf ch chz vol wave => packWord 1 ch.id wave.tag 0 0 vol chz 0
  | .playfd ch chz dur vol wave => packWord 1 ch.id wave.tag 0 1 vol chz dur
  | .playn ch note vol wave => packWord 1 ch.id wave.tag 1 0 vol (note.setWidth 32) 0
  | .playnd ch note dur vol wave => packWord 1 ch.id wave.tag 1 1 vol (note.setWidth 32) dur
  | .off ch => packWord 2 ch.id 0 0 0 0 0 0
  | .next => packWord 3 0 0 0 0 0 0 0
  | .rdsr => packWord 4 0 0 0 0 0 0 0

/-! ### The opcode map (R55) -/

/-- A row of the opcode map: a word selects it when `cw AND mask = pattern` and, for a note row, the note index is at most 108. -/
structure OpcodeRow where
  mnemonic : String
  pattern : CommandWord
  mask : CommandWord
  boundedNote : Bool
deriving DecidableEq, Repr

/-- R55 row `PLAYF`. -/
def rowPlayf : OpcodeRow := ⟨"PLAYF", 0x000000000000000000000001#96, 0xFFFFFFFF00000000FF00FF0F#96, false⟩
/-- R55 row `PLAYFD`. -/
def rowPlayfd : OpcodeRow := ⟨"PLAYFD", 0x000000000000000000000201#96, 0x0000000000000000FF00FF0F#96, false⟩
/-- R55 row `PLAYN`. -/
def rowPlayn : OpcodeRow := ⟨"PLAYN", 0x000000000000000000000101#96, 0xFFFFFFFFFFFFFF80FF00FF0F#96, true⟩
/-- R55 row `PLAYND`. -/
def rowPlaynd : OpcodeRow := ⟨"PLAYND", 0x000000000000000000000301#96, 0x00000000FFFFFF80FF00FF0F#96, true⟩
/-- R55 row `OFF`. -/
def rowOff : OpcodeRow := ⟨"OFF", 0x000000000000000000000002#96, 0xFFFFFFFFFFFFFFFFFFFFFFCF#96, false⟩
/-- R55 row `NEXT`. -/
def rowNext : OpcodeRow := ⟨"NEXT", 0x000000000000000000000003#96, 0xFFFFFFFFFFFFFFFFFFFFFFFF#96, false⟩
/-- R55 row `RDSR`. -/
def rowRdsr : OpcodeRow := ⟨"RDSR", 0x000000000000000000000004#96, 0xFFFFFFFFFFFFFFFFFFFFFFFF#96, false⟩

/-- The seven rows of R55, in the table's order. -/
def opcodeRows : List OpcodeRow := [rowPlayf, rowPlayfd, rowPlayn, rowPlaynd, rowOff, rowNext, rowRdsr]

/-- A word selects a row (R55). -/
def OpcodeRow.selects (r : OpcodeRow) (cw : CommandWord) : Bool :=
  decide (cw &&& r.mask = r.pattern) && (!r.boundedNote || noteInTable (fieldNote cw))

/-- The row a command belongs to. -/
def Instr.row : Instr → OpcodeRow
  | .playf _ _ _ _ => rowPlayf
  | .playfd _ _ _ _ _ => rowPlayfd
  | .playn _ _ _ _ => rowPlayn
  | .playnd _ _ _ _ _ => rowPlaynd
  | .off _ => rowOff
  | .next => rowNext
  | .rdsr => rowRdsr

/-! ### The host's numbering -/

/-- The command word whose low `nbits` bits are `w` and whose other bits are 0. Bit 0 of `w` is bit 0 of `W0`, bit 32 is bit 0 of `W1`,
bit 64 is bit 0 of `W2`, as spec/opcode_table.json numbers them. Log 12. -/
def tableWord (nbits w : Nat) : CommandWord := BitVec.ofNat 96 (w % 2 ^ nbits)

/-- The command the decoder reads from a word given by its number. -/
def decodeTableWord (nbits w : Nat) : Option Instr := (decode (tableWord nbits w)).toOption

end Sys2Proof
end

