-- ==== Sys2Proof/Machine/State.lean ====
section
/-! DEFINITION. The state of the machine as plain data (10_state.md R10), the one exception (60_exceptions.md R111), the refusals of the
model, and the state after reset (70_reset_and_hazards.md R130). -/

namespace Sys2Proof.Machine

/-- One oscillator record (R10, R13 to R17). -/
structure Oscillator where
  /-- The phase accumulator, u16 (R13). -/
  phase : Half
  /-- The unsigned 8.8 phase step, u16 (R14). -/
  step : Half
  /-- The volume, u8 (R15). -/
  vol : Byte
  /-- The envelope timer is running (R16). -/
  durActive : Bool
  /-- Samples the envelope timer has left, u32 (R16). -/
  durCount : Word
  /-- The wavetable selected, u2 (R17). -/
  wave : Waveform
deriving DecidableEq, Repr

/-- The oscillator record after reset: "No field is left unspecified" (R130). -/
def Oscillator.silent : Oscillator :=
  { phase := 0, step := 0, vol := 0, durActive := false, durCount := 0, wave := .sine }

/-- The register file: four oscillator records (R12). -/
structure OscFile where
  osc0 : Oscillator
  osc1 : Oscillator
  osc2 : Oscillator
  osc3 : Oscillator
deriving DecidableEq, Repr

/-- `rsp_kind` (30_encoding.md R50). -/
inductive RspKind where
  /-- 0: done, no data. -/
  | ack
  /-- 1: a sample. -/
  | sample
  /-- 2: the sample rate. -/
  | rate
  /-- 3: the word was illegal. -/
  | err
deriving DecidableEq, Repr

/-- What one command answers on the response port: `(rsp_kind, rsp_data)` (30_encoding.md R63). -/
structure Response where
  kind : RspKind
  data : Word
deriving DecidableEq, Repr

/-- One event the host presents (30_encoding.md R50): a word on `cmd`, or `reset` with the value on `cfg_sample_rate`. -/
inductive HostInput where
  | command (cw : CommandWord)
  | reset (cfgSampleRate : Word)
deriving DecidableEq, Repr

/-- The machine. `osc`, `sr` and `fault` are the spec's 293 bits (R10). `inputs` and `responses` are the model's own and stand for the
environment: the program is "the host's list of command words, consumed from the front" (R11; log 1), and the responses are what the
host has been given (00_scope.md R7 i; log 2). No meaning reads either. -/
structure State where
  /-- The four oscillators (R12). -/
  osc : OscFile
  /-- `SR`, the sample rate (R19). -/
  sr : Word
  /-- `FAULT`, sticky (R20); also the `fault` output. -/
  fault : Bool
  /-- What the host still presents, oldest first. -/
  inputs : List HostInput
  /-- What the host has received, oldest first. -/
  responses : List Response
deriving DecidableEq, Repr

/-- The exceptions of the machine: R111's list, "one entry long". Raising one (`raise`, R112) gives a NEXT state; no step stops with
one, since "the next command is executed normally". -/
inductive Fault where
  /-- `IllegalCommand`: raised by `step` for a word the decoder rejects, and by the meanings of PLAYN and PLAYND for a note index that
  names no note. Safe: it changes nothing but `FAULT` and the response, as R112 says. -/
  | illegalCommand
deriving DecidableEq, Repr

/-- Why the model declines to go on. -/
inductive Refusal where
  /-- Raised by an arm of `exec` whose instruction has no meaning yet: none has this left. Safe. -/
  | notModelled (mnemonic : String)
  /-- Raised by `step` for a reset with `cfg_sample_rate` 0: "a model takes `SAMPLE_RATE >= 1` as a premise of every run and refuses a
  launch that does not meet it" (R131). Safe: nothing is claimed of such a run. Log 7. -/
  | zeroSampleRate
deriving DecidableEq, Repr

/-- The state the reset event leaves for a sample rate (R130), the environment apart. -/
def State.afterReset (rate : Word) (inputs : List HostInput) (responses : List Response) : State :=
  { osc := { osc0 := .silent, osc1 := .silent, osc2 := .silent, osc3 := .silent }
    sr := rate, fault := false, inputs := inputs, responses := responses }

/-- The machine right after reset (R130): `SR` is the open configuration value, nothing is presented yet, nothing has been answered. -/
def State.reset : State := State.afterReset Config.sampleRate [] []

end Sys2Proof.Machine
end

