-- ==== Sys2Proof/Machine/Flags.lean ====
section
/-! DEFINITION. Flags. `FAULT` is the only one (10_state.md R20): there are no condition codes, and neither the wrap of the phase
accumulator nor the saturation of the clipper leaves a record. -/

namespace Sys2Proof.Machine

/-- `FAULT <- 1` (R20): sticky, so setting it twice is setting it once; only the reset event clears it. -/
def setFault (s : State) : State := { s with fault := true }

end Sys2Proof.Machine
end

