-- ==== Sys2Proof/Machine/Operands.lean ====
section
/-! DEFINITION. Operands: the duration forms of 30_encoding.md R54 as do_play takes them (42_control_commands.md R90), and the channel
operand as an index into the oscillator file (10_state.md R12). -/

namespace Sys2Proof.Machine

/-- The record channel `c` names. -/
def OscFile.read (f : OscFile) : Channel → Oscillator
  | .ch0 => f.osc0
  | .ch1 => f.osc1
  | .ch2 => f.osc2
  | .ch3 => f.osc3

/-- The file with the record of channel `c` replaced: "none aliases another" (R12). -/
def OscFile.write (f : OscFile) (c : Channel) (o : Oscillator) : OscFile :=
  match c with
  | .ch0 => { f with osc0 := o }
  | .ch1 => { f with osc1 := o }
  | .ch2 => { f with osc2 := o }
  | .ch3 => { f with osc3 := o }

/-- The file with every record changed at once. -/
def OscFile.map (g : Oscillator → Oscillator) (f : OscFile) : OscFile :=
  { osc0 := g f.osc0, osc1 := g f.osc1, osc2 := g f.osc2, osc3 := g f.osc3 }

/-- The duration operand: `none` where the encoding has `dur_en` 0, else a count of samples used as it is (R54, R78). -/
abbrev Duration := Option Word

/-- The volume do_play stores (R90): 0 for a note of zero samples. -/
def playedVolume (d : Duration) (v : Byte) : Byte :=
  match d with
  | none => v
  | some n => if n = 0 then 0 else v

/-- The timer flag do_play stores (R90). -/
def playedActive (d : Duration) : Bool :=
  match d with
  | none => false
  | some n => decide (n ≠ 0)

/-- The timer count do_play stores (R90). -/
def playedCount (d : Duration) : Word :=
  match d with
  | none => 0
  | some n => n

end Sys2Proof.Machine
end

