-- ==== Sys2Proof/Machine/PStep.lean ====
section
/-! DEFINITION. PSTEP, the frequency-to-phase-step converter: 40_note_frequency.md R74, R75. Log 8, log 9. -/

namespace Sys2Proof.Machine

/-- `a div rate` of R74. The rate is never 0 in a run (R131); the quotient by 0 is a free value. -/
def divByRate (a rate : Word) : Word := if rate = 0 then Config.quotientByRateZero a else a / rate

/-- `phase_step(rate, chz)` in R74's exact order: multiply by 256 and divide by the rate, multiply by 256 and divide by 100, the
products modulo 2^32, the low 16 bits of the end. -/
def phaseStep (rate chz : Word) : Half :=
  let a := chz * 256
  let b := divByRate a rate
  let c := b * 256
  let d := c / 100
  d.setWidth 16

end Sys2Proof.Machine
end

