-- ==== Sys2Proof/Machine/Ops.lean ====
section
/-! DEFINITION. The named operations the meanings are written over: the register file, the response port, raising the exception, the
reset event, and the common PLAY operation. -/

namespace Sys2Proof.Machine

/-- `osc[c]` (00_scope.md R8). -/
def readOsc (s : State) (c : Channel) : Oscillator := s.osc.read c

/-- `osc[c] <- o` (R8). -/
def writeOsc (s : State) (c : Channel) (o : Oscillator) : State := { s with osc := s.osc.write c o }

/-- `rsp_kind` as the port carries it (30_encoding.md R50). -/
def RspKind.code : RspKind → BitVec 2
  | .ack => 0
  | .sample => 1
  | .rate => 2
  | .err => 3

/-- `respond(kind, data)` (30_encoding.md R63): one response, delivered to the host. -/
def respond (kind : RspKind) (data : Word) (s : State) : State :=
  { s with responses := s.responses ++ [⟨kind, data⟩] }

/-- The cause code of an exception (60_exceptions.md R111). -/
def Fault.code : Fault → Nat
  | .illegalCommand => 1

/-- `raise IllegalCommand(cw)` (60_exceptions.md R112): `FAULT <- 1`, respond `(ERR, 0)`, and no other state changes. There is no
handler, no saved state and no return (R115). Log 4. -/
def raise (e : Fault) (s : State) : State :=
  match e with
  | .illegalCommand => respond .err 0 (setFault s)

/-- The reset event (70_reset_and_hazards.md R130): it sets the whole state and answers nothing (R141). -/
def resetEvent (rate : Word) (s : State) : State := State.afterReset rate s.inputs s.responses

/-- The record `do_play` leaves in its channel (42_control_commands.md R90). -/
def playedOsc (rate chz : Word) (d : Duration) (v : Byte) (w : Waveform) : Oscillator :=
  { phase := 0
    step := phaseStep rate chz
    vol := playedVolume d v
    durActive := playedActive d
    durCount := playedCount d
    wave := w }

/-- `do_play(c, chz, d, v, w)` (R90): the state change of every PLAY encoding. -/
def doPlay (c : Channel) (chz : Word) (d : Duration) (v : Byte) (w : Waveform) (s : State) : State :=
  respond .ack 0 (writeOsc s c (playedOsc s.sr chz d v w))

end Sys2Proof.Machine
end

