-- ==== Sys2Proof/Machine/Control.lean ====
section
/-! DEFINITION. The meanings of OFF and RDSR: 42_control_commands.md R95, R96. -/

namespace Sys2Proof.Machine

/-- The record OFF leaves (R95): volume, timer and phase cleared, step and waveform kept. -/
def silencedOsc (o : Oscillator) : Oscillator := { o with vol := 0, durActive := false, durCount := 0, phase := 0 }

/-- OFF (R95). -/
def execOff (ch : Channel) (s : State) : Host.Outcome State Fault Refusal :=
  .next (respond .ack 0 (writeOsc s ch (silencedOsc (readOsc s ch))))

/-- RDSR (R96): the answer is the rate latched at reset; nothing is written. -/
def execRdsr (s : State) : Host.Outcome State Fault Refusal := .next (respond .rate s.sr s)

end Sys2Proof.Machine
end

