-- ==== Sys2Proof/Machine/OscStep.lean ====
section
/-! DEFINITION. One channel at one tick: PHACC, WTROM, the multiplier and ENVTMR, 41_oscillator_step.md R81 to R85. The ROM is an
argument, so that every rule is a rule for every `WT` (20_memory.md R32). -/

namespace Sys2Proof.Machine

/-- `RomRead(w, i)` (20_memory.md R30): the byte at the 10-bit address `{w, i}`. -/
def romRead (rom : Rom) (w : Waveform) (i : Byte) : Byte := rom (w.tag ++ i)

/-- Step 1, the phase advance: 16-bit wrapping addition (R81). -/
def advancedPhase (o : Oscillator) : Half := o.phase + o.step

/-- The table index: the top 8 bits of a phase (R82). -/
def tableIndex (phase : Half) : Byte := phase.extractLsb' 8 8

/-- Steps 2 and 3: the entry at the ADVANCED phase times the volume from before the timer step, an exact integer (R82). -/
def contribution (rom : Rom) (o : Oscillator) : Int :=
  (romRead rom o.wave (tableIndex (advancedPhase o))).toInt * (o.vol.toNat : Int)

/-- Step 4, the envelope timer (R84): expiry writes the volume and stops the timer; an idle timer writes nothing. -/
def timerStep (o : Oscillator) : Oscillator :=
  if o.durActive then
    let n := o.durCount - 1
    if n = 0 then { o with durCount := 0, durActive := false, vol := 0 } else { o with durCount := n }
  else o

/-- The record part of `osc_step` (R85). -/
def steppedOsc (o : Oscillator) : Oscillator := { timerStep o with phase := advancedPhase o }

/-- `osc_step(o)`: the new record and the contribution (R85). -/
def oscStep (rom : Rom) (o : Oscillator) : Oscillator × Int := (steppedOsc o, contribution rom o)

end Sys2Proof.Machine
end

