-- ==== Sys2Proof/Machine/Mix.lean ====
section
/-! DEFINITION. MIXADD, the rescale, CLIP and PCMBIAS: 43_next_downmix.md R101 to R104. -/

namespace Sys2Proof.Machine

/-- The exact sum of the four contributions (R101). Log 17. -/
def mixAdd (rom : Rom) (f : OscFile) : Int :=
  (oscStep rom f.osc0).2 + (oscStep rom f.osc1).2 + (oscStep rom f.osc2).2 + (oscStep rom f.osc3).2

/-- `acc >>a 10`: the arithmetic shift, rounding toward minus infinity (R102, conflict C2). -/
def rescale (acc : Int) : Int := acc >>> (10 : Nat)

/-- `clamp8(x)`: the symmetric clamp to -128..127 (R103). -/
def clamp8 (x : Int) : Int := max (-128) (min 127 x)

/-- A sample as the s8 bit pattern the response carries. -/
def sampleByte (x : Int) : Byte := BitVec.ofInt 8 x

/-- `to_pcm(sample)`: the sample plus 128 as a u8 (R104). -/
def toPcm (sample : Byte) : Byte := BitVec.ofInt 8 (sample.toInt + 128)

/-- The sample one `NEXT` produces from the oscillators as they stand before it (R100). -/
def nextSample (rom : Rom) (f : OscFile) : Byte := sampleByte (clamp8 (rescale (mixAdd rom f)))

/-- The data of a SAMPLE response: `{0x0000, pcm[7:0], sample[7:0]}` (R100). -/
def sampleData (sample : Byte) : Word := (0 : BitVec 16) ++ toPcm sample ++ sample

end Sys2Proof.Machine
end

