-- ==== Sys2Proof/Machine/Next.lean ====
section
/-! DEFINITION. The meaning of NEXT: 43_next_downmix.md R100. -/

namespace Sys2Proof.Machine

/-- One tick with a given wavetable ROM (R100): every oscillator takes its step, and the response carries the sample made of the
contributions. -/
def tickWith (rom : Rom) (s : State) : State :=
  respond .sample (sampleData (nextSample rom s.osc)) { s with osc := s.osc.map fun o => (oscStep rom o).1 }

/-- NEXT (R100), with the machine's own ROM. -/
def execNext (s : State) : Host.Outcome State Fault Refusal := .next (tickWith Config.wt s)

end Sys2Proof.Machine
end

