-- ==== Sys2Proof/Machine/NoteLut.lean ====
section
/-! DEFINITION. NOTELUT, the note table: 40_note_frequency.md R70 to R72, read by 20_memory.md R33. Log 10. -/

namespace Sys2Proof.Machine

/-- Octaves 0 to 2 of R72, C to B. -/
def noteOctavesLow : List Nat :=
  [1635, 1732, 1835, 1945, 2060, 2183, 2312, 2450, 2596, 2750, 2914, 3087,
   3270, 3465, 3671, 3889, 4120, 4365, 4625, 4900, 5191, 5500, 5827, 6174,
   6541, 6930, 7342, 7778, 8241, 8731, 9250, 9800, 10383, 11000, 11654, 12347]

/-- Octaves 3 to 5 of R72, C to B. -/
def noteOctavesMiddle : List Nat :=
  [13081, 13859, 14683, 15556, 16481, 17461, 18500, 19600, 20765, 22000, 23308, 24694,
   26163, 27718, 29366, 31113, 32963, 34923, 36999, 39200, 41530, 44000, 46616, 49388,
   52325, 55437, 58733, 62225, 65926, 69846, 73999, 78399, 83061, 88000, 93233, 98777]

/-- Octaves 6 to 8 of R72, C to B. -/
def noteOctavesHigh : List Nat :=
  [104650, 110873, 117466, 124451, 131851, 139691, 147998, 156798, 166122, 176000, 186466, 197553,
   209300, 221746, 234932, 248902, 263702, 279383, 295996, 313596, 332244, 352000, 372931, 395107,
   418601, 443492, 469864, 497803, 527404, 558765, 591991, 627193, 664488, 704000, 745862, 790213]

/-- `NOTE_CHZ`, index 0 (Rest, 0 cHz) first (R72). -/
def noteTable : List Nat := 0 :: (noteOctavesLow ++ noteOctavesMiddle ++ noteOctavesHigh)

/-- `LutRead(k)` (R33): the note's frequency in centi-hertz, for the indices 0 to 108 that exist. -/
def lutRead (k : BitVec 7) : Option Word := (noteTable[k.toNat]?).map (BitVec.ofNat 32)

end Sys2Proof.Machine
end

