-- ==== Sys2Proof/Machine/Play.lean ====
section
/-! DEFINITION. The meanings of the four PLAY encodings: 42_control_commands.md R91 to R94. -/

namespace Sys2Proof.Machine

/-- `do_play` of a note: its frequency is read from the table; an index that names no note raises IllegalCommand and reads nothing
(30_encoding.md R59). The decoder never lets such an index through; log 11. -/
def playNote (c : Channel) (note : BitVec 7) (d : Duration) (v : Byte) (w : Waveform) (s : State) : State :=
  match lutRead note with
  | some chz => doPlay c chz d v w s
  | none => raise .illegalCommand s

/-- PLAYF: `do_play(ch, u(W1), None, vol, wave)` (R91). -/
def execPlayf (ch : Channel) (chz : Word) (vol : Byte) (wave : Waveform) (s : State) : Host.Outcome State Fault Refusal :=
  .next (doPlay ch chz none vol wave s)

/-- PLAYFD: `do_play(ch, u(W1), Some(u(W2)), vol, wave)` (R92). -/
def execPlayfd (ch : Channel) (chz dur : Word) (vol : Byte) (wave : Waveform) (s : State) :
    Host.Outcome State Fault Refusal :=
  .next (doPlay ch chz (some dur) vol wave s)

/-- PLAYN: `do_play(ch, LutRead(u(W1[6:0])), None, vol, wave)` (R93). -/
def execPlayn (ch : Channel) (note : BitVec 7) (vol : Byte) (wave : Waveform) (s : State) :
    Host.Outcome State Fault Refusal :=
  .next (playNote ch note none vol wave s)

/-- PLAYND: `do_play(ch, LutRead(u(W1[6:0])), Some(u(W2)), vol, wave)` (R94). -/
def execPlaynd (ch : Channel) (note : BitVec 7) (dur : Word) (vol : Byte) (wave : Waveform) (s : State) :
    Host.Outcome State Fault Refusal :=
  .next (playNote ch note (some dur) vol wave s)

end Sys2Proof.Machine
end

