-- ==== Sys2Proof/Machine/Dispatch.lean ====
section
/-! DEFINITION. One arm per command: 30_encoding.md R55, 95_test_vectors.md section 5. -/

namespace Sys2Proof.Machine

def exec (i : Instr) (s : State) : Host.Outcome State Fault Refusal :=
  match i with
  | .playf ch chz vol wave => Sys2Proof.Machine.execPlayf ch chz vol wave s
  | .playfd ch chz dur vol wave => Sys2Proof.Machine.execPlayfd ch chz dur vol wave s
  | .playn ch note vol wave => Sys2Proof.Machine.execPlayn ch note vol wave s
  | .playnd ch note dur vol wave => Sys2Proof.Machine.execPlaynd ch note dur vol wave s
  | .off ch => Sys2Proof.Machine.execOff ch s
  | .next => Sys2Proof.Machine.execNext s
  | .rdsr => Sys2Proof.Machine.execRdsr s

end Sys2Proof.Machine
end

