-- ==== Sys2Proof/Machine/Accept.lean ====
section
/-! DEFINITION. Accepting one event of the host: a command word or the reset event (30_encoding.md R50, R56). -/

namespace Sys2Proof.Machine

/-- `exec(cw)` of 95_test_vectors.md section 5: decode the word on the port; an illegal one is executed as `raise IllegalCommand(cw)`
(30_encoding.md R56). -/
def acceptWord (cw : CommandWord) (s : State) : Host.Outcome State Fault Refusal :=
  match decode cw with
  | .ok i => exec i s
  | .error _ => .next (raise .illegalCommand s)

/-- The reset event, refused for the illegal configuration 0 (70_reset_and_hazards.md R130, R131). -/
def acceptReset (rate : Word) (s : State) : Host.Outcome State Fault Refusal :=
  if rate = 0 then .refused .zeroSampleRate else .next (resetEvent rate s)

/-- Accept the event `e` in a state from which it has been taken off the host's list. -/
def accept (e : HostInput) (s : State) : Host.Outcome State Fault Refusal :=
  match e with
  | .command cw => acceptWord cw s
  | .reset rate => acceptReset rate s

/-- Present a command word as the very next event. -/
def presentWord (cw : CommandWord) (s : State) : State := { s with inputs := .command cw :: s.inputs }

end Sys2Proof.Machine
end

