-- ==== Sys2Proof/Machine/Step.lean ====
section
/-! DEFINITION. One step: the engine accepts the oldest event the host presents and executes it to completion (10_state.md R11,
70_reset_and_hazards.md R135); with nothing presented it is idle (60_exceptions.md R122; log 3). -/

namespace Sys2Proof.Machine

/-- One step of the machine. -/
def step (s : State) : Host.Outcome State Fault Refusal :=
  match s.inputs with
  | [] => .next s
  | e :: rest => accept e { s with inputs := rest }

/-- The state with a command word, given by its number, presented as the next event. Log 12. -/
def State.withFetchWord (s : State) (nbits w : Nat) : State := presentWord (tableWord nbits w) s

end Sys2Proof.Machine
end

