-- ==== Sys2Proof/Machine/HostSide.lean ====
section
/-! DEFINITION. What the spec defines on the host's side of the port: the milliseconds conversion (40_note_frequency.md R77), the
pseudo-commands (30_encoding.md R62), and the text of commands (R61). None of it is a hardware operation, and no meaning uses it. -/

namespace Sys2Proof.Machine

/-- `dur_from_ms(rate, ms)`: whole sample periods in `ms` milliseconds, saturated to 32 bits, the product not wrapped (R77). -/
def durFromMs (rate ms : Word) : Word := BitVec.ofNat 32 (min (ms.toNat * rate.toNat / 1000) (2 ^ 32 - 1))

/-! ### Pseudo-commands (R62) -/

/-- The `note_or_frequency` operand: a note of the table or a frequency in centi-hertz. -/
inductive Pitch where
  | freq (chz : Word)
  | note (k : BitVec 7)
deriving DecidableEq, Repr

/-- R62 a to d. -/
inductive Pseudo where
  /-- `PLAY ch, x, d, vol, wave`. -/
  | play (ch : Channel) (x : Pitch) (d : Option Word) (vol : Byte) (wave : Waveform)
  /-- `PLAYHZ ch, hz, d, vol, wave`. -/
  | playHz (ch : Channel) (hz : Nat) (d : Option Word) (vol : Byte) (wave : Waveform)
  /-- `PLAYMS ch, x, ms, vol, wave`. -/
  | playMs (ch : Channel) (x : Pitch) (ms : Word) (vol : Byte) (wave : Waveform)
  /-- `NEXT n`. -/
  | nextN (n : Nat)
deriving DecidableEq, Repr

/-- R62 a: the PLAY encoding for the kinds of the pitch and the duration. -/
def selectPlay (ch : Channel) (x : Pitch) (d : Option Word) (vol : Byte) (wave : Waveform) : Instr :=
  match x, d with
  | .freq chz, none => .playf ch chz vol wave
  | .freq chz, some n => .playfd ch chz n vol wave
  | .note k, none => .playn ch k vol wave
  | .note k, some n => .playnd ch k n vol wave

/-- The commands a pseudo-command stands for, at the sample rate the hardware was reset with; none where the assembler must refuse
(`hz > 42949672`, R62 b). -/
def Pseudo.expand (rate : Word) : Pseudo → Option (List Instr)
  | .play ch x d vol wave => some [selectPlay ch x d vol wave]
  | .playHz ch hz d vol wave =>
    if hz ≤ 42949672 then some [selectPlay ch (.freq (BitVec.ofNat 32 (hz * 100))) d vol wave] else none
  | .playMs ch x ms vol wave => some [selectPlay ch x (some (durFromMs rate ms)) vol wave]
  | .nextN n => some (List.replicate n .next)

/-! ### Command text (R61), read as characters. Log 16. -/

/-- The pitch classes of R61, C to B, `S` for sharp. -/
def pitchNames : List (List Char) :=
  [['C'], ['C', 'S'], ['D'], ['D', 'S'], ['E'], ['F'], ['F', 'S'], ['G'], ['G', 'S'], ['A'], ['A', 'S'], ['B']]

/-- The name of a note index: `REST` for 0, else pitch class and octave (R61). -/
def noteName (k : Nat) : Option (List Char) :=
  if k = 0 then some ['R', 'E', 'S', 'T']
  else if k ≤ 108 then (pitchNames[(k - 1) % 12]?).map fun p => p ++ [Nat.digitChar ((k - 1) / 12)]
  else none

/-- The note index of a name. -/
def noteOfName (name : List Char) : Option (BitVec 7) :=
  ((List.range 109).find? fun k => decide (noteName k = some name)).map (BitVec.ofNat 7)

/-- The digits of the two number forms of R61, each at the place of its value: the first ten are the decimal ones. -/
def digits : List Char := "0123456789ABCDEF".toList

/-- The value of a digit, a letter in either case (log 16). -/
def digitValue (c : Char) : Option Nat := digits.idxOf? c.toUpper

/-- Digits in a base, most significant first, after a value already read. -/
def readDigits (base : Nat) : Nat → List Char → Option Nat
  | acc, [] => some acc
  | acc, c :: cs =>
    match digitValue c with
    | some v => if v < base then readDigits base (acc * base + v) cs else none
    | none => none

/-- A number, "decimal or `0x` hexadecimal" (R61). -/
def readNumber : List Char → Option Nat
  | [] => none
  | '0' :: 'x' :: c :: cs => readDigits 16 0 (c :: cs)
  | c :: cs => readDigits 10 0 (c :: cs)

/-- A number that fits an unsigned field of `bits` bits. -/
def readField (bits : Nat) (t : List Char) : Option (BitVec bits) :=
  match readNumber t with
  | some n => if n < 2 ^ bits then some (BitVec.ofNat bits n) else none
  | none => none

/-- A channel operand: 0 to 3, or `CH0` to `CH3` (R61). -/
def readChannel : List Char → Option Channel
  | ['C', 'H', c] => (readField 2 [c]).map channelOf
  | t => (readField 2 t).map channelOf

/-- A waveform operand: `SINE`, `SAW`, `SQUARE`, `NOISE`, or 0 to 3 (R61). -/
def readWave (t : List Char) : Option Waveform :=
  if t = ['S', 'I', 'N', 'E'] then some .sine
  else if t = ['S', 'A', 'W'] then some .sawtooth
  else if t = ['S', 'Q', 'U', 'A', 'R', 'E'] then some .square
  else if t = ['N', 'O', 'I', 'S', 'E'] then some .noise
  else (readField 2 t).map waveformOf

/-- A note operand: an index 0 to 108 or a name (R61). -/
def readNote (t : List Char) : Option (BitVec 7) :=
  match readNumber t with
  | some n => if n ≤ 108 then some (BitVec.ofNat 7 n) else none
  | none => noteOfName t

/-- The pitch operand of a pseudo-command: a note name or a frequency in centi-hertz (R62 a). -/
def readPitch (t : List Char) : Option Pitch :=
  match noteOfName t with
  | some k => some (.note k)
  | none => (readField 32 t).map .freq

/-- The duration operand of a pseudo-command: `NONE` or a sample count (R62 a). -/
def readDuration (t : List Char) : Option (Option Word) :=
  if t = ['N', 'O', 'N', 'E'] then some none else (readField 32 t).map some

/-- Text without the spaces at its two ends. -/
def trimSpaces (t : List Char) : List Char :=
  ((t.dropWhile fun c => c == ' ').reverse.dropWhile fun c => c == ' ').reverse

/-- The operands of a line: the text between commas, trimmed. -/
def splitOperands (t : List Char) : List (List Char) :=
  (t.foldr (fun c parts => if c = ',' then [] :: parts else
    match parts with
    | [] => [[c]]
    | p :: ps => (c :: p) :: ps) [[]]).map trimSpaces

/-- One command or pseudo-command from its name and its operands. -/
def readCommand (rate : Word) (name : List Char) (ops : List (List Char)) : Option (List Instr) :=
  match name, ops with
  | ['P', 'L', 'A', 'Y', 'F'], [c, f, v, w] => do
    return [.playf (← readChannel c) (← readField 32 f) (← readField 8 v) (← readWave w)]
  | ['P', 'L', 'A', 'Y', 'F', 'D'], [c, f, d, v, w] => do
    return [.playfd (← readChannel c) (← readField 32 f) (← readField 32 d) (← readField 8 v) (← readWave w)]
  | ['P', 'L', 'A', 'Y', 'N'], [c, n, v, w] => do
    return [.playn (← readChannel c) (← readNote n) (← readField 8 v) (← readWave w)]
  | ['P', 'L', 'A', 'Y', 'N', 'D'], [c, n, d, v, w] => do
    return [.playnd (← readChannel c) (← readNote n) (← readField 32 d) (← readField 8 v) (← readWave w)]
  | ['O', 'F', 'F'], [c] => do return [.off (← readChannel c)]
  | ['N', 'E', 'X', 'T'], [[]] => some [.next]
  | ['N', 'E', 'X', 'T'], [n] => do (Pseudo.nextN (← readNumber n)).expand rate
  | ['R', 'D', 'S', 'R'], [[]] => some [.rdsr]
  | ['P', 'L', 'A', 'Y'], [c, x, d, v, w] => do
    (Pseudo.play (← readChannel c) (← readPitch x) (← readDuration d) (← readField 8 v) (← readWave w)).expand rate
  | ['P', 'L', 'A', 'Y', 'H', 'Z'], [c, hz, d, v, w] => do
    (Pseudo.playHz (← readChannel c) (← readNumber hz) (← readDuration d) (← readField 8 v) (← readWave w)).expand rate
  | ['P', 'L', 'A', 'Y', 'M', 'S'], [c, x, ms, v, w] => do
    (Pseudo.playMs (← readChannel c) (← readPitch x) (← readField 32 ms) (← readField 8 v) (← readWave w)).expand rate
  | _, _ => none

/-- One line of command text: the name, then the operands; text from `;` on is a remark (R61). -/
def readLine (rate : Word) (line : List Char) : Option (List Instr) :=
  let text := trimSpaces (line.takeWhile fun c => c != ';')
  readCommand rate (text.takeWhile fun c => c != ' ') (splitOperands (text.dropWhile fun c => c != ' '))

/-- The command words of one line, at the sample rate the hardware was reset with. -/
def assembleLine (rate : Word) (line : List Char) : Option (List CommandWord) :=
  (readLine rate line).map fun is => is.map encode

end Sys2Proof.Machine
end

