-- ==== Sys2Proof/Safety.lean ====
section
/-! DEFINITION. What counts as a safe run, and the words the statements use: the invariant of 10_state.md R16 and R19, the faulted run
of 60_exceptions.md R112, runs over a list of host events (20_memory.md R39), and which events reach a channel. -/

namespace Sys2Proof.Safety

open Sys2Proof.Machine

/-- R16 for one oscillator: the timer is running exactly when it has samples left. -/
abbrev TimerOk (o : Oscillator) : Prop := o.durActive = true ↔ o.durCount ≠ 0

/-- The invariant of the machine: every envelope timer is in one of its two forms (R16), and the sample rate is a legal one (R19). -/
abbrev Inv (s : State) : Prop :=
  TimerOk s.osc.osc0 ∧ TimerOk s.osc.osc1 ∧ TimerOk s.osc.osc2 ∧ TimerOk s.osc.osc3 ∧ s.sr ≠ 0

/-- R112: "A model should treat a run in which `FAULT` becomes 1 as a faulted run". A safe state is one that is not faulted. -/
def faulted (s : State) : Option Fault := if s.fault then some .illegalCommand else none

/-- A run: the host presents these events and no others, and the machine takes one step for each (R39). -/
def runAll (es : List HostInput) (s : State) : Host.Outcome State Fault Refusal :=
  Sys2Proof.core.run es.length { s with inputs := es }

/-- The rule of one event after what came before: it is accepted if the machine went on, and a stopped machine stays stopped. -/
def thenAccept (r : Host.Outcome State Fault Refusal) (e : HostInput) : Host.Outcome State Fault Refusal :=
  match r with
  | .next t => accept e t
  | .fault f => .fault f
  | .refused f => .refused f

/-- The channel a command addresses. -/
def channelAddressed : Instr → Option Channel
  | .playf c _ _ _ => some c
  | .playfd c _ _ _ _ => some c
  | .playn c _ _ _ => some c
  | .playnd c _ _ _ _ => some c
  | .off c => some c
  | .next => none
  | .rdsr => none

/-- The command is one of the four PLAY encodings on channel `c`. -/
def playsOn (c : Channel) (i : Instr) : Bool :=
  match i with
  | .playf d _ _ _ => decide (d = c)
  | .playfd d _ _ _ _ => decide (d = c)
  | .playn d _ _ _ => decide (d = c)
  | .playnd d _ _ _ _ => decide (d = c)
  | .off _ => false
  | .next => false
  | .rdsr => false

/-- The event is a word that decodes to a command with the property `p`. -/
def carries (p : Instr → Bool) : HostInput → Bool
  | .command cw =>
    match decode cw with
    | .ok i => p i
    | .error _ => false
  | .reset _ => false

/-- The event is a NEXT. -/
def isTick : HostInput → Bool := carries fun i => decide (i = .next)

/-- The event is a reset. -/
def isReset : HostInput → Bool
  | .command _ => false
  | .reset _ => true

/-- The event is a PLAY or OFF on channel `c`. -/
def addresses (c : Channel) : HostInput → Bool := carries fun i => decide (channelAddressed i = some c)

/-- The event has a bearing on the sample stream: a reset, or a legal word other than RDSR (43_next_downmix.md R107). -/
def shapesSound (e : HostInput) : Bool := isReset e || carries (fun i => decide (i ≠ .rdsr)) e

/-- What `do_play(c, chz, d, v, w)` leaves in its channel at a sample rate (42_control_commands.md R90), with the step in the arithmetic
of 40_note_frequency.md R74 on natural numbers. The step is claimed for a legal rate only (70_reset_and_hazards.md R131). -/
def Played (rate chz : Word) (d : Option Word) (v : Byte) (w : Waveform) (o : Oscillator) : Prop :=
  o.phase = 0 ∧ o.wave = w ∧
  (rate ≠ 0 → o.step.toNat = chz.toNat * 256 % 2 ^ 32 / rate.toNat * 256 % 2 ^ 32 / 100 % 2 ^ 16) ∧
  (d = none → o.vol = v ∧ o.durActive = false ∧ o.durCount = 0) ∧
  (∀ n, d = some n → n ≠ 0 → o.vol = v ∧ o.durActive = true ∧ o.durCount = n) ∧
  (d = some 0 → o.vol = 0 ∧ o.durActive = false ∧ o.durCount = 0)

/-- The frame of a command on channel `c`: every other channel, `SR`, `FAULT` and what the host still presents are as before. The
machine has no memory that a command could write (10_state.md R23). -/
def ChangesOnlyChannel (c : Channel) (s t : State) : Prop :=
  (∀ d, d ≠ c → readOsc t d = readOsc s d) ∧ t.sr = s.sr ∧ t.fault = s.fault ∧ t.inputs = s.inputs

/-- The effect of `raise IllegalCommand` (60_exceptions.md R112): `FAULT` and one `ERR` response, nothing else. -/
def RaisedIllegal (s t : State) : Prop :=
  t.fault = true ∧ t.responses = s.responses ++ [⟨.err, 0⟩] ∧ t.osc = s.osc ∧ t.sr = s.sr ∧ t.inputs = s.inputs

/-- The sample responses among a list of responses, oldest first (43_next_downmix.md R107: the stream). -/
def sampleStream (rs : List Response) : List Word :=
  rs.filterMap fun r => if r.kind = .sample then some r.data else none

/-- Two oscillators no response can tell apart (10_state.md R18): equal, or both silent with phase, step and waveform free. -/
abbrev SameSound (o p : Oscillator) : Prop :=
  o.vol = p.vol ∧ o.durActive = p.durActive ∧ o.durCount = p.durCount ∧
    (o.vol ≠ 0 → o.phase = p.phase ∧ o.step = p.step ∧ o.wave = p.wave)

end Sys2Proof.Safety
end

