-- ==== Sys2Proof/Certificates/Slice0/Obligations.lean ====
section
/-! DEFINITION. The statements for the provers, in the order of OBLIGATIONS.json. Each docstring names the rule of spec/ it comes from. -/

open Sys2Proof Sys2Proof.Machine Sys2Proof.Safety

/-! ### Encoding -/

/-- Words written out in 95_test_vectors.md V-ENC, one or two for each format and some illegal ones, decode to what they stand
for. -/
def Obligations.SpecWordsDecode : Prop :=
  decode 0x00000000_00006633_00FF0041#96 = .ok (.playf .ch0 26163 255 .sawtooth) ∧
  decode 0x00000003_000186A0_00FF0291#96 = .ok (.playfd .ch1 100000 3 255 .square) ∧
  decode 0x00000000_0000003A_00FF0101#96 = .ok (.playn .ch0 58 255 .sine) ∧
  decode 0x00000002_00000031_008003E1#96 = .ok (.playnd .ch2 49 2 128 .noise) ∧
  decode 0x00000000_00000000_00000032#96 = .ok (.off .ch3) ∧
  decode 0x00000000_00000000_00000003#96 = .ok .next ∧
  decode 0x00000000_00000000_00000004#96 = .ok .rdsr ∧
  decode 0x00000000_00000000_00000000#96 = .error .opcode ∧
  decode 0x00000000_0000006D_00000101#96 = .error .noteIndex

/-- 30_encoding.md R53 ("encoding then decoding is the identity"), for every command and every operand. -/
def Obligations.DecodeOfEncodeIsIdentity : Prop :=
  ∀ i : Instr, i.wellFormed = true → decode (encode i) = .ok i

/-- 30_encoding.md R53: unused fields of a legal word are 0, two legal words never decode to the same command, and encoding what a
legal word decodes to gives the word back. -/
def Obligations.LegalWordsAreCanonical : Prop :=
  (∀ (cw : CommandWord) (i : Instr), decode cw = .ok i → i.wellFormed = true ∧ encode i = cw) ∧
  (∀ (cw cw' : CommandWord) (i : Instr), decode cw = .ok i → decode cw' = .ok i → cw = cw') ∧
  (∀ (cw : CommandWord) (i : Instr), decode cw = .ok i →
    fieldRsv0 cw = 0 ∧ fieldRsv1 cw = 0 ∧
    (fieldDurEn cw = 0 → fieldDur cw = 0) ∧
    (fieldFsel cw = 1 → fieldFvalHigh cw = 0) ∧
    (fieldOp cw = 2 → fieldWave cw = 0 ∧ fieldFsel cw = 0 ∧ fieldDurEn cw = 0 ∧ fieldVol cw = 0 ∧ fieldFval cw = 0) ∧
    (fieldOp cw = 3 → cw = 3) ∧ (fieldOp cw = 4 → cw = 4))

/-- 30_encoding.md R51, R54: every operand of a decoded command is the unsigned number in its field, nothing extended or scaled. -/
def Obligations.OperandsAreTheirFields : Prop :=
  ∀ (cw : CommandWord) (i : Instr), decode cw = .ok i →
    match i with
    | .playf ch chz vol wave =>
      ch.id.toNat = cw.toNat / 2 ^ 4 % 4 ∧ wave.tag.toNat = cw.toNat / 2 ^ 6 % 4 ∧ vol.toNat = cw.toNat / 2 ^ 16 % 256 ∧
      chz.toNat = cw.toNat / 2 ^ 32 % 2 ^ 32
    | .playfd ch chz dur vol wave =>
      ch.id.toNat = cw.toNat / 2 ^ 4 % 4 ∧ wave.tag.toNat = cw.toNat / 2 ^ 6 % 4 ∧ vol.toNat = cw.toNat / 2 ^ 16 % 256 ∧
      chz.toNat = cw.toNat / 2 ^ 32 % 2 ^ 32 ∧ dur.toNat = cw.toNat / 2 ^ 64
    | .playn ch note vol wave =>
      ch.id.toNat = cw.toNat / 2 ^ 4 % 4 ∧ wave.tag.toNat = cw.toNat / 2 ^ 6 % 4 ∧ vol.toNat = cw.toNat / 2 ^ 16 % 256 ∧
      note.toNat = cw.toNat / 2 ^ 32 % 2 ^ 7
    | .playnd ch note dur vol wave =>
      ch.id.toNat = cw.toNat / 2 ^ 4 % 4 ∧ wave.tag.toNat = cw.toNat / 2 ^ 6 % 4 ∧ vol.toNat = cw.toNat / 2 ^ 16 % 256 ∧
      note.toNat = cw.toNat / 2 ^ 32 % 2 ^ 7 ∧ dur.toNat = cw.toNat / 2 ^ 64
    | .off ch => ch.id.toNat = cw.toNat / 2 ^ 4 % 4
    | .next => cw.toNat = 3
    | .rdsr => cw.toNat = 4

/-- 30_encoding.md R57: a word is illegal exactly in the cases (a) to (g), and every illegal word has the effect of R112. -/
def Obligations.IllegalWordsAreThoseOfR57 : Prop :=
  (∀ cw : CommandWord, (∃ e, decode cw = .error e) ↔
    (fieldOp cw = 0 ∨ 5 ≤ (fieldOp cw).toNat) ∨
    (fieldRsv0 cw ≠ 0 ∨ fieldRsv1 cw ≠ 0) ∨
    (fieldOp cw = 1 ∧ fieldDurEn cw = 0 ∧ fieldDur cw ≠ 0) ∨
    (fieldOp cw = 1 ∧ fieldFsel cw = 1 ∧ fieldFvalHigh cw ≠ 0) ∨
    (fieldOp cw = 1 ∧ fieldFsel cw = 1 ∧ 109 ≤ (fieldNote cw).toNat) ∨
    (fieldOp cw = 2 ∧ (fieldWave cw ≠ 0 ∨ fieldFsel cw ≠ 0 ∨ fieldDurEn cw ≠ 0 ∨ fieldVol cw ≠ 0 ∨ fieldFval cw ≠ 0 ∨
      fieldDur cw ≠ 0)) ∨
    ((fieldOp cw = 3 ∨ fieldOp cw = 4) ∧ cw.toNat / 2 ^ 4 ≠ 0)) ∧
  (∀ (s : State) (cw : CommandWord) (e : IllegalReason), decode cw = .error e →
    ∃ t, acceptWord cw s = .next t ∧ RaisedIllegal s t)

/-- 30_encoding.md R55: a word selects a row of the opcode map exactly when it decodes to a command of that row, and it selects at
most one row. -/
def Obligations.OpcodeMapSelectsTheCommand : Prop :=
  (∀ (cw : CommandWord) (r : OpcodeRow), r ∈ opcodeRows → (r.selects cw = true ↔ ∃ i, decode cw = .ok i ∧ i.row = r)) ∧
  (∀ (cw : CommandWord) (r r' : OpcodeRow), r ∈ opcodeRows → r' ∈ opcodeRows → r.selects cw = true → r'.selects cw = true → r = r')

/-! ### The step -/

/-- 10_state.md R11, 30_encoding.md R50: one step takes the oldest command off the host's list and executes what it decodes to. -/
def Obligations.StepRunsTheDecodedCommand : Prop :=
  (∀ (s : State) (cw : CommandWord) (rest : List HostInput) (i : Instr),
    s.inputs = .command cw :: rest → decode cw = .ok i → step s = exec i { s with inputs := rest }) ∧
  (∀ (s : State) (nbits w : Nat) (i : Instr), decodeTableWord nbits w = some i → step (s.withFetchWord nbits w) = exec i s)

/-- 60_exceptions.md R112: what an illegal word does, that the next command then runs as usual, and that `FAULT` stays 1 until
reset. -/
def Obligations.IllegalCommandIsReportedAndHarmless : Prop :=
  (∀ (s : State) (cw : CommandWord) (rest : List HostInput) (e : IllegalReason),
    s.inputs = .command cw :: rest → decode cw = .error e →
    ∃ t, step s = .next t ∧ RaisedIllegal { s with inputs := rest } t ∧ faulted t = some .illegalCommand ∧
      (∀ (cw' : CommandWord) (rest' : List HostInput) (i : Instr), rest = .command cw' :: rest' → decode cw' = .ok i →
        step t = exec i { t with inputs := rest' })) ∧
  (∀ s t : State, s.fault = true → step s = .next t → t.fault = true ∨ ∃ rate rest, s.inputs = .reset rate :: rest)

/-- 10_state.md R20: "no command's behaviour depends on it". Two states that differ in `FAULT` alone go on alike. -/
def Obligations.FaultFlagIsNeverRead : Prop :=
  ∀ (s t : State) (b : Bool), step s = .next t →
    ∃ u, step { s with fault := b } = .next u ∧ u.osc = t.osc ∧ u.sr = t.sr ∧ u.inputs = t.inputs ∧ u.responses = t.responses

/-- 60_exceptions.md R110, R122, 70_reset_and_hazards.md R131: a step always goes on, except that a reset with rate 0 is refused;
with nothing presented it changes nothing. -/
def Obligations.OnlyAZeroRateResetStops : Prop :=
  (∀ s : State, (∃ t, step s = .next t) ∨
    (∃ rest, s.inputs = .reset 0 :: rest) ∧ step s = .refused .zeroSampleRate) ∧
  (∀ (s : State) (rest : List HostInput), s.inputs = .reset 0 :: rest → step s = .refused .zeroSampleRate) ∧
  (∀ s : State, s.inputs = [] → step s = .next s)

/-- 70_reset_and_hazards.md R130: the reset event sets the whole state, and it is the only writer of `SR` and the only event that
clears `FAULT`. That the record of past responses, and what the host still presents, outlive the reset is the model's choice
(log 1, log 2), no part of R130. -/
def Obligations.ResetEventSetsTheWholeState : Prop :=
  (∀ (s : State) (rate : Word) (rest : List HostInput), s.inputs = .reset rate :: rest → rate ≠ 0 →
    ∃ t, step s = .next t ∧ t.sr = rate ∧ t.fault = false ∧ t.inputs = rest ∧ t.responses = s.responses ∧
      ∀ c, (readOsc t c).phase = 0 ∧ (readOsc t c).step = 0 ∧ (readOsc t c).vol = 0 ∧ (readOsc t c).durActive = false ∧
        (readOsc t c).durCount = 0 ∧ (readOsc t c).wave = .sine) ∧
  (∀ s t : State, step s = .next t → t.sr ≠ s.sr ∨ (s.fault = true ∧ t.fault = false) →
    ∃ rate rest, s.inputs = .reset rate :: rest)

/-- 70_reset_and_hazards.md R130, R131: the state after reset, field by field. That nothing is presented and nothing answered is the
model's choice (log 1, log 2), and that the rate is the open value of at least 1 is log 5. -/
def Obligations.ResetStateHoldsTheSpecsValues : Prop :=
  State.reset.sr ≠ 0 ∧ State.reset.sr = Config.sampleRate ∧ State.reset.fault = false ∧
  State.reset.inputs = [] ∧ State.reset.responses = [] ∧
  ∀ c, (readOsc State.reset c).phase = 0 ∧ (readOsc State.reset c).step = 0 ∧ (readOsc State.reset c).vol = 0 ∧
    (readOsc State.reset c).durActive = false ∧ (readOsc State.reset c).durCount = 0 ∧ (readOsc State.reset c).wave = .sine

/-- 20_memory.md R39: the state after a sequence of host events is the left-to-right fold of the rules of each. -/
def Obligations.RunIsTheFoldOfTheCommandRules : Prop :=
  ∀ (es : List HostInput) (s : State),
    runAll es s = es.foldl thenAccept (.next { s with inputs := [] })

/-! ### Notes, steps, durations -/

/-- 40_note_frequency.md R72: the note table is the equal-tempered scale in centi-hertz, rounded to the nearest integer. -/
def Obligations.NoteTableIsEqualTempered : Prop :=
  lutRead 0 = some 0 ∧
  (∀ k : BitVec 7, 1 ≤ k.toNat → k.toNat ≤ 108 → ∃ n : Word, lutRead k = some n ∧
    |(440 : ℝ) * 2 ^ (((k.toNat : ℝ) - 58) / 12) * 100 - (n.toNat : ℝ)| < 1 / 2) ∧
  (∀ (j k : BitVec 7) (m n : Word), lutRead j = some m → lutRead k = some n → j.toNat < k.toNat → m.toNat < n.toNat) ∧
  (∀ (k : BitVec 7) (n : Word), lutRead k = some n → n.toNat ≤ 790213) ∧ lutRead 108 = some 790213

/-- 20_memory.md R33: the note indices that exist are 0 to 108; a legal PLAYN or PLAYND carries one of them. -/
def Obligations.NoteReadsExistUpTo108 : Prop :=
  (∀ k : BitVec 7, (∃ n, lutRead k = some n) ↔ k.toNat ≤ 108) ∧
  (∀ (cw : CommandWord) (c : Channel) (k : BitVec 7) (v : Byte) (w : Waveform), decode cw = .ok (.playn c k v w) →
    ∃ n, lutRead k = some n) ∧
  (∀ (cw : CommandWord) (c : Channel) (k : BitVec 7) (d : Word) (v : Byte) (w : Waveform),
    decode cw = .ok (.playnd c k d v w) → ∃ n, lutRead k = some n)

/-- 40_note_frequency.md R74: the phase step, in natural-number arithmetic, for every legal rate and every frequency. -/
def Obligations.PhaseStepIsR74 : Prop :=
  (∀ rate chz : Word, rate ≠ 0 →
    (phaseStep rate chz).toNat = chz.toNat * 256 % 2 ^ 32 / rate.toNat * 256 % 2 ^ 32 / 100 % 2 ^ 16) ∧
  phaseStep 8000 26163 = 0x085E

/-- 40_note_frequency.md R75, the spec's own inference [derived: from rule R74]: in the exact domain nothing wraps; and the three
ways out of it. -/
def Obligations.PhaseStepExactDomain : Prop :=
  (∀ rate chz : Word, rate ≠ 0 → chz.toNat < min (2 ^ 24) (100 * rate.toNat) →
    (phaseStep rate chz).toNat = chz.toNat * 256 / rate.toNat * 256 / 100 ∧
    chz.toNat * 256 < 2 ^ 32 ∧ chz.toNat * 256 / rate.toNat * 256 < 2 ^ 32 ∧
    chz.toNat * 256 / rate.toNat * 256 / 100 < 65536) ∧
  (∀ rate : Word, rate ≠ 0 → phaseStep rate 16777216 = 0) ∧
  (∀ rate chz : Word, rate ≠ 0 → 2 ^ 24 ≤ chz.toNat * 256 % 2 ^ 32 / rate.toNat → rate.toNat < 256) ∧
  phaseStep 8000 800000 = 0

/-- 40_note_frequency.md R76 a, b and d: a rest gives step 0, so does any frequency too small for the rate, and in the exact
domain the step is monotone, though not strictly (conflict C5: 1732 and 1835 cHz tie at 48000). -/
def Obligations.PhaseStepIsMonotone : Prop :=
  (∀ rate : Word, rate ≠ 0 → phaseStep rate 0 = 0) ∧
  (∀ rate chz : Word, chz.toNat * 256 < rate.toNat → phaseStep rate chz = 0) ∧
  (∀ rate chz chz' : Word, chz.toNat ≤ chz'.toNat → chz'.toNat < min (2 ^ 24) (100 * rate.toNat) →
    (phaseStep rate chz).toNat ≤ (phaseStep rate chz').toNat) ∧
  phaseStep 48000 1732 = 23 ∧ phaseStep 48000 1835 = 23

/-- 40_note_frequency.md R77: the milliseconds conversion, saturated, with its corner cases and examples. -/
def Obligations.DurationFromMilliseconds : Prop :=
  (∀ rate ms : Word, (durFromMs rate ms).toNat = min (ms.toNat * rate.toNat / 1000) (2 ^ 32 - 1)) ∧
  (∀ rate ms : Word, ms.toNat * rate.toNat < 1000 → durFromMs rate ms = 0) ∧
  (∀ rate ms : Word, 1000 * 2 ^ 32 ≤ ms.toNat * rate.toNat → (durFromMs rate ms).toNat = 2 ^ 32 - 1) ∧
  durFromMs 8000 125 = 1000 ∧ durFromMs 44100 1 = 44

/-! ### The PLAY commands, OFF, RDSR -/

/-- 42_control_commands.md R90, R91: PLAYF runs in every state, starts the note in its channel and changes nothing else. -/
def Obligations.PlayfStartsAFrequency : Prop :=
  ∀ (ch : Channel) (chz : Word) (vol : Byte) (wave : Waveform) (s : State),
    ∃ t, exec (.playf ch chz vol wave) s = .next t ∧ Played s.sr chz none vol wave (readOsc t ch) ∧
      ChangesOnlyChannel ch s t ∧ t.responses = s.responses ++ [⟨.ack, 0⟩]

/-- 42_control_commands.md R90, R92: PLAYFD runs in every state, starts the timed note in its channel and changes nothing else. -/
def Obligations.PlayfdStartsATimedFrequency : Prop :=
  ∀ (ch : Channel) (chz dur : Word) (vol : Byte) (wave : Waveform) (s : State),
    ∃ t, exec (.playfd ch chz dur vol wave) s = .next t ∧ Played s.sr chz (some dur) vol wave (readOsc t ch) ∧
      ChangesOnlyChannel ch s t ∧ t.responses = s.responses ++ [⟨.ack, 0⟩]

/-- 42_control_commands.md R90, R93: PLAYN runs in every state; a note of the table is started at its table frequency, and an index
that names no note raises IllegalCommand (log 11; no legal word carries one). -/
def Obligations.PlaynStartsANote : Prop :=
  ∀ (ch : Channel) (note : BitVec 7) (vol : Byte) (wave : Waveform) (s : State),
    (note.toNat ≤ 108 → ∃ chz t, lutRead note = some chz ∧ exec (.playn ch note vol wave) s = .next t ∧
      Played s.sr chz none vol wave (readOsc t ch) ∧ ChangesOnlyChannel ch s t ∧ t.responses = s.responses ++ [⟨.ack, 0⟩]) ∧
    (108 < note.toNat → ∃ t, exec (.playn ch note vol wave) s = .next t ∧ RaisedIllegal s t)

/-- 42_control_commands.md R90, R94: PLAYND, likewise, with a duration. -/
def Obligations.PlayndStartsATimedNote : Prop :=
  ∀ (ch : Channel) (note : BitVec 7) (dur : Word) (vol : Byte) (wave : Waveform) (s : State),
    (note.toNat ≤ 108 → ∃ chz t, lutRead note = some chz ∧ exec (.playnd ch note dur vol wave) s = .next t ∧
      Played s.sr chz (some dur) vol wave (readOsc t ch) ∧ ChangesOnlyChannel ch s t ∧
      t.responses = s.responses ++ [⟨.ack, 0⟩]) ∧
    (108 < note.toNat → ∃ t, exec (.playnd ch note dur vol wave) s = .next t ∧ RaisedIllegal s t)

/-- 42_control_commands.md R95: OFF runs in every state, clears volume, timer and phase of its channel, keeps its step and waveform,
changes nothing else, and the channel then contributes exactly 0 whatever the ROM holds. -/
def Obligations.OffSilencesItsChannel : Prop :=
  ∀ (ch : Channel) (s : State), ∃ t, exec (.off ch) s = .next t ∧
    (readOsc t ch).vol = 0 ∧ (readOsc t ch).durActive = false ∧ (readOsc t ch).durCount = 0 ∧ (readOsc t ch).phase = 0 ∧
    (readOsc t ch).step = (readOsc s ch).step ∧ (readOsc t ch).wave = (readOsc s ch).wave ∧
    ChangesOnlyChannel ch s t ∧ t.responses = s.responses ++ [⟨.ack, 0⟩] ∧
    ∀ rom : Rom, contribution rom (readOsc t ch) = 0

/-- 42_control_commands.md R96: RDSR runs in every state, answers `SR` and writes nothing. -/
def Obligations.RdsrAnswersTheSampleRate : Prop :=
  ∀ s : State, ∃ t, exec .rdsr s = .next t ∧ t.responses = s.responses ++ [⟨.rate, s.sr⟩] ∧
    t.osc = s.osc ∧ t.sr = s.sr ∧ t.fault = s.fault ∧ t.inputs = s.inputs

/-! ### One oscillator at one tick -/

/-- 20_memory.md R30: a wavetable read is of the address 256 * w + i, tables in the order sine, sawtooth, square, noise, and every
address is read by exactly one waveform and index, and the index of a read is the top 8 bits of a phase accumulator. -/
def Obligations.RomIsAddressedByWaveAndIndex : Prop :=
  (∀ (rom : Rom) (w : Waveform) (i : Byte), ∃ a : BitVec 10, romRead rom w i = rom a ∧ a.toNat = 256 * w.tag.toNat + i.toNat) ∧
  Waveform.sine.tag = 0 ∧ Waveform.sawtooth.tag = 1 ∧ Waveform.square.tag = 2 ∧ Waveform.noise.tag = 3 ∧
  (∀ a : BitVec 10, ∃! p : Waveform × Byte, a.toNat = 256 * p.1.tag.toNat + p.2.toNat) ∧
  (∀ (rom : Rom) (o : Oscillator), ∃ i : Byte, i.toNat = (o.phase + o.step).toNat / 256 ∧
    contribution rom o = (romRead rom o.wave i).toInt * o.vol.toNat)

/-- 41_oscillator_step.md R85, with R81, R82 and R84 in it: the new record and the contribution of `osc_step`, and its example. -/
def Obligations.OscillatorStepIsR85 : Prop :=
  (∀ (rom : Rom) (o : Oscillator),
    (oscStep rom o).1.phase.toNat = (o.phase.toNat + o.step.toNat) % 65536 ∧
    (∃ a : BitVec 10, a.toNat = 256 * o.wave.tag.toNat + (o.phase.toNat + o.step.toNat) % 65536 / 256 ∧
      (oscStep rom o).2 = (rom a).toInt * o.vol.toNat) ∧
    (oscStep rom o).1.step = o.step ∧ (oscStep rom o).1.wave = o.wave ∧
    (o.durActive = true → o.durCount = 1 →
      (oscStep rom o).1.vol = 0 ∧ (oscStep rom o).1.durActive = false ∧ (oscStep rom o).1.durCount = 0) ∧
    (o.durActive = true → o.durCount ≠ 1 →
      (oscStep rom o).1.vol = o.vol ∧ (oscStep rom o).1.durActive = true ∧
      (oscStep rom o).1.durCount.toNat = (o.durCount.toNat + (2 ^ 32 - 1)) % 2 ^ 32) ∧
    (o.durActive = false →
      (oscStep rom o).1.vol = o.vol ∧ (oscStep rom o).1.durActive = false ∧ (oscStep rom o).1.durCount = o.durCount)) ∧
  (∀ rom : Rom, rom 0x260 = 127 →
    oscStep rom ⟨0x4000, 0x2000, 255, true, 1, .square⟩ = (⟨0x6000, 0x2000, 0, false, 0, .square⟩, 32385))

/-- 41_oscillator_step.md R83, the spec's own inference [derived: from rule R82]: a contribution is in -32640..32385, inside 16
signed bits, and 0 when the volume is 0. -/
def Obligations.ContributionFits16Bits : Prop :=
  (∀ (rom : Rom) (o : Oscillator), -32640 ≤ contribution rom o ∧ contribution rom o ≤ 32385 ∧
    (BitVec.ofInt 16 (contribution rom o)).toInt = contribution rom o) ∧
  (∀ (rom : Rom) (o : Oscillator), o.vol = 0 → contribution rom o = 0)

/-- 41_oscillator_step.md R86, the spec's own inference [derived: from rule R85]: channels are independent, so stepping them one
after another in any order gives the same oscillators and the same sum. -/
def Obligations.ChannelOrderIsUnobservable : Prop :=
  ∀ (rom : Rom) (f : OscFile) (order : List Channel), order.Perm [.ch0, .ch1, .ch2, .ch3] →
    order.foldl (fun (p : OscFile × Int) c => (p.1.write c (oscStep rom (p.1.read c)).1, p.2 + (oscStep rom (p.1.read c)).2)) (f, 0)
      = (f.map (fun o => (oscStep rom o).1), mixAdd rom f)

/-- 41_oscillator_step.md R87: a rest (frequency 0, or note 0) keeps the phase at 0, so with no duration every tick contributes the
constant `WT[wave][0] * vol`; the volume is not forced to 0 (conflict C6). -/
def Obligations.RestHoldsAConstantLevel : Prop :=
  ∀ (rom : Rom) (c : Channel) (x : Pitch) (v : Byte) (w : Waveform) (s : State) (k : Nat), s.sr ≠ 0 →
    x = .freq 0 ∨ x = .note 0 →
    ∃ t, exec (selectPlay c x none v w) s = .next t ∧
      (steppedOsc^[k] (readOsc t c)).phase = 0 ∧ (steppedOsc^[k] (readOsc t c)).vol = v ∧
      contribution rom (steppedOsc^[k] (readOsc t c)) = (romRead rom w 0).toInt * v.toNat

/-- 41_oscillator_step.md R88, the spec's own inference [derived: from rule R84 and rule R90]: how long a note sounds. After any
PLAY on a channel and any later events that are neither a reset nor a PLAY or OFF on it, the channel still has the given volume
exactly while fewer ticks have passed than the duration; with no duration it keeps it; a duration of 0 never sounds. -/
def Obligations.NoteSoundsForItsDuration : Prop :=
  ∀ (c : Channel) (x : Pitch) (d : Option Word) (v : Byte) (w : Waveform) (s : State) (es : List HostInput),
    (selectPlay c x d v w).wellFormed = true → (∀ e ∈ es, isReset e = false ∧ addresses c e = false) →
    ∃ t u, exec (selectPlay c x d v w) s = .next t ∧ runAll es t = .next u ∧
      (d = none → (readOsc u c).vol = v) ∧
      (∀ n, d = some n → es.countP isTick < n.toNat →
        (readOsc u c).vol = v ∧ (readOsc u c).durActive = true ∧ (readOsc u c).durCount.toNat = n.toNat - es.countP isTick) ∧
      (∀ n, d = some n → n.toNat ≤ es.countP isTick →
        (readOsc u c).vol = 0 ∧ (readOsc u c).durActive = false ∧ (readOsc u c).durCount = 0)

/-- 41_oscillator_step.md R89, the spec's own inference [derived: from rule R81 and rule R82]: where `step * K = 65536`, K ticks
of a sounding channel from phase 0 bring it back to where it was, and the j-th contribution reads the table at `(j * step)[15:8]`.
-/
def Obligations.PeriodReadsEvenlySpacedPoints : Prop :=
  ∀ (rom : Rom) (o : Oscillator) (K : Nat), o.phase = 0 → o.durActive = false → o.step.toNat * K = 65536 →
    steppedOsc^[K] o = o ∧
    ∀ j, 1 ≤ j → j ≤ K → contribution rom (steppedOsc^[j - 1] o)
      = (romRead rom o.wave (BitVec.ofNat 8 (j * o.step.toNat % 65536 / 256))).toInt * o.vol.toNat

/-- 42_control_commands.md R95, 41_oscillator_step.md R84: a silent channel (after OFF, expiry or reset) stays silent, and
contributes 0 whatever the ROM holds, until a PLAY on it. -/
def Obligations.SilenceLastsUntilPlay : Prop :=
  ∀ (c : Channel) (s t : State) (es : List HostInput), (readOsc s c).vol = 0 →
    (∀ e ∈ es, carries (playsOn c) e = false) → runAll es s = .next t →
    (readOsc t c).vol = 0 ∧ ∀ rom : Rom, contribution rom (readOsc t c) = 0

/-! ### NEXT -/

/-- 43_next_downmix.md R100: NEXT runs in every state, steps every channel, and answers the clamped, rescaled sum of the four
contributions as a sample and a PCM byte; nothing else changes, silence gives sample 0 and PCM 128, and `SR` is not read. The
second clause is the rule's example. -/
def Obligations.NextProducesOneSample : Prop :=
  (∀ s : State, ∃ (t : State) (sample pcm : Byte), exec .next s = .next t ∧ t = tickWith Config.wt s ∧
    (∀ c, readOsc t c = (oscStep Config.wt (readOsc s c)).1) ∧
    t.sr = s.sr ∧ t.fault = s.fault ∧ t.inputs = s.inputs ∧
    t.responses = s.responses ++ [⟨.sample, (0 : BitVec 16) ++ pcm ++ sample⟩] ∧
    sample.toInt = max (-128) (min 127
      (((oscStep Config.wt (readOsc s .ch0)).2 + (oscStep Config.wt (readOsc s .ch1)).2
        + (oscStep Config.wt (readOsc s .ch2)).2 + (oscStep Config.wt (readOsc s .ch3)).2) / 1024)) ∧
    (pcm.toNat : Int) = sample.toInt + 128 ∧
    ((∀ c, (readOsc s c).vol = 0) → sample = 0 ∧ pcm = 128) ∧
    (∀ rate, ∃ u, exec .next { s with sr := rate } = .next u ∧ u.osc = t.osc ∧ u.responses = t.responses)) ∧
  (∀ rom : Rom, (rom 0x108).toInt = -120 → ∃ t, exec (.playf .ch0 26163 255 .sawtooth) (State.afterReset 8000 [] []) = .next t ∧
    (readOsc (tickWith rom t) .ch0).phase = 0x085E ∧ (tickWith rom t).responses = t.responses ++ [⟨.sample, 0x000062E2⟩])

/-- 43_next_downmix.md R101: the exact sum of the four contributions, in any order, is in -130560..129540, so an accumulator of
any width from 18 bits on that adds the four contributions with wrapping holds it exactly. -/
def Obligations.MixSumNeverOverflows : Prop :=
  ∀ (rom : Rom) (f : OscFile),
    mixAdd rom f = (oscStep rom f.osc0).2 + (oscStep rom f.osc1).2 + (oscStep rom f.osc2).2 + (oscStep rom f.osc3).2 ∧
    (∀ c, -32640 ≤ (oscStep rom (f.read c)).2 ∧ (oscStep rom (f.read c)).2 ≤ 32385) ∧
    -130560 ≤ mixAdd rom f ∧ mixAdd rom f ≤ 129540 ∧
    (∀ order : List Channel, order.Perm [.ch0, .ch1, .ch2, .ch3] →
      (order.map fun c => (oscStep rom (f.read c)).2).sum = mixAdd rom f) ∧
    ∀ n : Nat, 18 ≤ n →
      (BitVec.ofInt n (contribution rom f.osc0) + BitVec.ofInt n (contribution rom f.osc1)
        + BitVec.ofInt n (contribution rom f.osc2) + BitVec.ofInt n (contribution rom f.osc3)).toInt = mixAdd rom f

/-- 43_next_downmix.md R102: the rescale is the floor of the quotient by 1024 (rounding toward minus infinity), with its examples.
-/
def Obligations.RescaleRoundsDown : Prop :=
  (∀ acc : Int, rescale acc = ⌊(acc : ℚ) / 1024⌋) ∧
  rescale (-1) = -1 ∧ rescale (-1024) = -1 ∧ rescale (-1025) = -2 ∧ rescale 1023 = 0 ∧
  (∀ acc : Int, acc < 0 → ¬ (1024 : Int) ∣ acc → rescale acc = Int.tdiv acc 1024 - 1) ∧
  (∀ acc : Int, -1024 ≤ acc → acc < 0 → sampleByte (clamp8 (rescale acc)) = -1)

/-- 43_next_downmix.md R103: the clamp saturates symmetrically, never to +128 and never wrapping, with its examples. -/
def Obligations.ClipperSaturates : Prop :=
  (∀ x : Int, clamp8 x = max (-128) (min 127 x)) ∧
  (∀ x : Int, (x < -128 → clamp8 x = -128) ∧ (127 < x → clamp8 x = 127) ∧ (-128 ≤ x → x ≤ 127 → clamp8 x = x)) ∧
  (∀ x : Int, (sampleByte (clamp8 x)).toInt = clamp8 x) ∧
  clamp8 126 = 126 ∧ clamp8 128 = 127 ∧ clamp8 (-128) = -128 ∧ clamp8 (-129) = -128 ∧ clamp8 (-160) = -128

/-- 43_next_downmix.md R104: the PCM byte is the sample plus 128, the sample with bit 7 inverted, and the conversion is a
bijection. -/
def Obligations.PcmIsSamplePlus128 : Prop :=
  (∀ sample : Byte, ((toPcm sample).toNat : Int) = sample.toInt + 128) ∧
  (∀ sample : Byte, toPcm sample = sample ^^^ 0x80) ∧
  Function.Bijective toPcm ∧
  toPcm (BitVec.ofInt 8 (-128)) = 0 ∧ toPcm 0 = 128 ∧ toPcm 127 = 255

/-- 43_next_downmix.md R105, the spec's own inference [derived: from rule R101 and rule R102]: with four channels the clipper
never acts, sample 127 is never produced, and the extremes are reached. -/
def Obligations.FourChannelsNeverClip : Prop :=
  (∀ (rom : Rom) (f : OscFile), -128 ≤ rescale (mixAdd rom f) ∧ rescale (mixAdd rom f) ≤ 126 ∧
    clamp8 (rescale (mixAdd rom f)) = rescale (mixAdd rom f) ∧ nextSample rom f ≠ 127 ∧ toPcm (nextSample rom f) ≠ 255) ∧
  (∃ (rom : Rom) (f : OscFile), (nextSample rom f).toInt = 126) ∧
  (∃ (rom : Rom) (f : OscFile), (nextSample rom f).toInt = -128) ∧
  rescale 161925 = 158 ∧ clamp8 (rescale 161925) = 127

/-- 43_next_downmix.md R106, the spec's own inference [derived: from rule R83 and rule R102]: one channel alone spans -32..31, and
reaches both ends at full volume. -/
def Obligations.OneChannelSpansAQuarter : Prop :=
  (∀ (rom : Rom) (f : OscFile) (c : Channel), (∀ d, d ≠ c → (f.read d).vol = 0) →
    -32 ≤ rescale (mixAdd rom f) ∧ rescale (mixAdd rom f) ≤ 31) ∧
  (∃ (rom : Rom) (f : OscFile), (∀ d, d ≠ Channel.ch0 → (f.read d).vol = 0) ∧ (f.read .ch0).vol = 255 ∧
    rescale (mixAdd rom f) = 31) ∧
  (∃ (rom : Rom) (f : OscFile), (∀ d, d ≠ Channel.ch0 → (f.read d).vol = 0) ∧ (f.read .ch0).vol = 255 ∧
    rescale (mixAdd rom f) = -32) ∧
  rescale 32385 = 31 ∧ rescale (-32640) = -32

/-- 70_reset_and_hazards.md R132, the spec's own inference [derived: from rule R130, R85 and R100]: after reset and until the
first PLAY, every NEXT answers sample 0, PCM 128, and changes no oscillator. -/
def Obligations.SilentUntilTheFirstPlay : Prop :=
  ∀ (rate : Word) (es : List HostInput), (∀ e ∈ es, isReset e = false ∧ ∀ c, carries (playsOn c) e = false) →
    ∃ t u, runAll es (State.afterReset rate [] []) = .next t ∧ exec .next t = .next u ∧
      u.responses = t.responses ++ [⟨.sample, 0x00008000⟩] ∧ u.osc = t.osc ∧ u.sr = t.sr ∧ u.fault = t.fault

/-! ### The whole machine -/

/-- 10_state.md R16, R19: the invariant is kept by every step from every state that has it: an envelope timer runs exactly when it
has samples left, and the sample rate is at least 1. -/
def Obligations.StepKeepsTimersAndRateLegal : Prop :=
  ∀ s t : State, Inv s → step s = .next t → Inv t

/-- 10_state.md R16, 70_reset_and_hazards.md R130: the invariant holds right after reset. -/
def Obligations.ResetMeetsTheInvariant : Prop := Inv State.reset

/-- 30_encoding.md R63: each command gives exactly one response, of the kind and data the rule lists, whatever was answered
before. -/
def Obligations.EachCommandAnswersOnce : Prop :=
  (∀ (s : State) (cw : CommandWord) (rest : List HostInput), s.inputs = .command cw :: rest →
    ∃ (r : Response) (t : State),
      (∀ past, step { s with responses := past } = .next { t with responses := past ++ [r] }) ∧
      match decode cw with
      | .ok .next => r.kind = .sample ∧ r.data.extractLsb' 16 16 = 0 ∧ r.data.extractLsb' 0 8 = nextSample Config.wt s.osc ∧
        ((r.data.extractLsb' 8 8).toNat : Int) = (r.data.extractLsb' 0 8).toInt + 128
      | .ok .rdsr => r = ⟨.rate, s.sr⟩
      | .ok _ => r = ⟨.ack, 0⟩
      | .error _ => r = ⟨.err, 0⟩) ∧
  RspKind.ack.code = 0 ∧ RspKind.sample.code = 1 ∧ RspKind.rate.code = 2 ∧ RspKind.err.code = 3

/-- 42_control_commands.md R97, the spec's own inference [derived: from rules R90, R95, R96, R100]: what no command does. That a
command other than NEXT leaves every channel it does not address as it was is 10_state.md R12 too. -/
def Obligations.WhatNoCommandDoes : Prop :=
  ∀ (i : Instr) (s t : State), exec i s = .next t →
    t.sr = s.sr ∧ (s.fault = true → t.fault = true) ∧
    (i ≠ .next → ∀ c, channelAddressed i ≠ some c → readOsc t c = readOsc s c) ∧
    (i ≠ .next → ∀ f : OscFile, ∃ u, exec i { s with osc := f } = .next u ∧ u.responses = t.responses) ∧
    (∀ c, (readOsc t c).step ≠ (readOsc s c).step ∨ (readOsc t c).wave ≠ (readOsc s c).wave ∨
        ((readOsc t c).vol ≠ (readOsc s c).vol ∧ (readOsc t c).vol ≠ 0) →
      playsOn c i = true ∧ (readOsc t c).phase = 0)

/-- 70_reset_and_hazards.md R137, the spec's own inference [derived: from rule R135, R90 and R95]: PLAY and OFF commands to
different channels commute; of several to one channel the last decides, a PLAY wholly and an OFF all but the step and the
waveform. -/
def Obligations.ControlBetweenTicks : Prop :=
  (∀ (i j : Instr) (c d : Channel) (s : State), channelAddressed i = some c → channelAddressed j = some d → c ≠ d →
    i.wellFormed = true → j.wellFormed = true →
    ∃ s₁ s₂ t, exec i s = .next s₁ ∧ exec j s₁ = .next t ∧ exec j s = .next s₂ ∧ exec i s₂ = .next t) ∧
  (∀ (i j : Instr) (c : Channel) (s : State), channelAddressed i = some c → playsOn c j = true →
    i.wellFormed = true → j.wellFormed = true →
    ∃ s₁ t u, exec i s = .next s₁ ∧ exec j s₁ = .next t ∧ exec j s = .next u ∧ t.osc = u.osc) ∧
  (∀ (i : Instr) (c : Channel) (s : State), playsOn c i = true → i.wellFormed = true →
    ∃ s₁ t, exec i s = .next s₁ ∧ exec (.off c) s₁ = .next t ∧ (readOsc t c).step = (readOsc s₁ c).step ∧
      (readOsc t c).wave = (readOsc s₁ c).wave ∧ (readOsc t c).vol = 0 ∧ (readOsc t c).phase = 0)

/-- 10_state.md R18, the spec's own inference [derived: from rule R82, R90, R95, R84 and R130]: OFF, expiry and reset leave volume
0, and phase, step and waveform of a silent channel can never be heard: two states that differ in them alone give the same
responses however long they run. -/
def Obligations.SilentFieldsAreNeverHeard : Prop :=
  (∀ (c : Channel) (s t : State), exec (.off c) s = .next t → (readOsc t c).vol = 0) ∧
  (∀ (rate : Word) (c : Channel) (s : State), (readOsc (resetEvent rate s) c).vol = 0) ∧
  (∀ o : Oscillator, o.durActive = true → (steppedOsc o).durActive = false → (steppedOsc o).vol = 0) ∧
  (∀ (k : Nat) (s t s' : State), (∀ c, SameSound (readOsc s c) (readOsc t c)) → s.sr = t.sr → s.fault = t.fault →
    s.inputs = t.inputs → s.responses = t.responses → Sys2Proof.core.run k s = .next s' →
    ∃ t' : State, Sys2Proof.core.run k t = .next t' ∧ t'.responses = s'.responses ∧ t'.fault = s'.fault)

/-- 43_next_downmix.md R107, the spec's own inference [derived: from rules R90, R95, R96, R100 and R112]: the sample stream is
decided by the resets and the legal commands other than RDSR; taking illegal words and RDSR commands out of the host's list
changes no sample. -/
def Obligations.SampleStreamIgnoresIllegalAndRdsr : Prop :=
  ∀ (es : List HostInput) (s t : State), runAll es s = .next t →
    ∃ u, runAll (es.filter shapesSound) s = .next u ∧ sampleStream u.responses = sampleStream t.responses ∧
      u.osc = t.osc ∧ u.sr = t.sr

/-- 30_encoding.md R62: what the host's pseudo-commands stand for, and that PLAYHZ is refused above 42949672 Hz, where the product
would not fit. -/
def Obligations.PseudoCommandsExpand : Prop :=
  (∀ (rate : Word) (c : Channel) (hz : Nat) (d : Option Word) (v : Byte) (w : Waveform),
    ((Pseudo.playHz c hz d v w).expand rate = none ↔ 42949672 < hz) ∧
    (hz ≤ 42949672 → ∃ chz : Word, chz.toNat = hz * 100 ∧
      (Pseudo.playHz c hz d v w).expand rate = (Pseudo.play c (.freq chz) d v w).expand rate)) ∧
  (∀ (rate : Word) (c : Channel) (x : Pitch) (ms : Word) (v : Byte) (w : Waveform),
    (Pseudo.playMs c x ms v w).expand rate = (Pseudo.play c x (some (durFromMs rate ms)) v w).expand rate) ∧
  (∀ (rate : Word) (c : Channel) (chz n : Word) (k : BitVec 7) (v : Byte) (w : Waveform),
    (Pseudo.play c (.freq chz) none v w).expand rate = some [.playf c chz v w] ∧
    (Pseudo.play c (.freq chz) (some n) v w).expand rate = some [.playfd c chz n v w] ∧
    (Pseudo.play c (.note k) none v w).expand rate = some [.playn c k v w] ∧
    (Pseudo.play c (.note k) (some n) v w).expand rate = some [.playnd c k n v w]) ∧
  (∀ (rate : Word) (n : Nat), (Pseudo.nextN n).expand rate = some (List.replicate n .next))
end

