-- ==== Sys2Proof/Laws/Encoding.lean ====
section
/-! SUPPORT. The tags, the fields of a command word as natural numbers, the fields of a packed word, and what a word that decodes
looks like. -/

namespace Sys2Proof

/-! ### Tags -/

@[simp] theorem channelOf_id (c : Channel) : channelOf c.id = c := by cases c <;> rfl
@[simp] theorem id_channelOf (b : BitVec 2) : (channelOf b).id = b := by
  revert b; decide
@[simp] theorem waveformOf_tag (w : Waveform) : waveformOf w.tag = w := by cases w <;> rfl
@[simp] theorem tag_waveformOf (b : BitVec 2) : (waveformOf b).tag = b := by
  revert b; decide

theorem Waveform.tag_injective {w x : Waveform} (h : w.tag = x.tag) : w = x := by
  rw [← waveformOf_tag w, h, waveformOf_tag]

/-! ### Fields as natural numbers -/

theorem fieldOp_toNat (cw : CommandWord) : (fieldOp cw).toNat = cw.toNat % 2 ^ 4 := by
  simp [fieldOp, BitVec.extractLsb'_toNat]
theorem fieldCh_toNat (cw : CommandWord) : (fieldCh cw).toNat = cw.toNat / 2 ^ 4 % 2 ^ 2 := by
  simp [fieldCh, BitVec.extractLsb'_toNat, Nat.shiftRight_eq_div_pow]
theorem fieldWave_toNat (cw : CommandWord) : (fieldWave cw).toNat = cw.toNat / 2 ^ 6 % 2 ^ 2 := by
  simp [fieldWave, BitVec.extractLsb'_toNat, Nat.shiftRight_eq_div_pow]
theorem fieldFsel_toNat (cw : CommandWord) : (fieldFsel cw).toNat = cw.toNat / 2 ^ 8 % 2 ^ 1 := by
  simp [fieldFsel, BitVec.extractLsb'_toNat, Nat.shiftRight_eq_div_pow]
theorem fieldDurEn_toNat (cw : CommandWord) : (fieldDurEn cw).toNat = cw.toNat / 2 ^ 9 % 2 ^ 1 := by
  simp [fieldDurEn, BitVec.extractLsb'_toNat, Nat.shiftRight_eq_div_pow]
theorem fieldRsv0_toNat (cw : CommandWord) : (fieldRsv0 cw).toNat = cw.toNat / 2 ^ 10 % 2 ^ 6 := by
  simp [fieldRsv0, BitVec.extractLsb'_toNat, Nat.shiftRight_eq_div_pow]
theorem fieldVol_toNat (cw : CommandWord) : (fieldVol cw).toNat = cw.toNat / 2 ^ 16 % 2 ^ 8 := by
  simp [fieldVol, BitVec.extractLsb'_toNat, Nat.shiftRight_eq_div_pow]
theorem fieldRsv1_toNat (cw : CommandWord) : (fieldRsv1 cw).toNat = cw.toNat / 2 ^ 24 % 2 ^ 8 := by
  simp [fieldRsv1, BitVec.extractLsb'_toNat, Nat.shiftRight_eq_div_pow]
theorem fieldFval_toNat (cw : CommandWord) : (fieldFval cw).toNat = cw.toNat / 2 ^ 32 % 2 ^ 32 := by
  simp [fieldFval, BitVec.extractLsb'_toNat, Nat.shiftRight_eq_div_pow]
theorem fieldNote_toNat (cw : CommandWord) : (fieldNote cw).toNat = cw.toNat / 2 ^ 32 % 2 ^ 7 := by
  simp [fieldNote, BitVec.extractLsb'_toNat, Nat.shiftRight_eq_div_pow]
theorem fieldFvalHigh_toNat (cw : CommandWord) : (fieldFvalHigh cw).toNat = cw.toNat / 2 ^ 39 % 2 ^ 25 := by
  simp [fieldFvalHigh, BitVec.extractLsb'_toNat, Nat.shiftRight_eq_div_pow]
theorem fieldDur_toNat (cw : CommandWord) : (fieldDur cw).toNat = cw.toNat / 2 ^ 64 := by
  have h := cw.isLt
  simp [fieldDur, BitVec.extractLsb'_toNat, Nat.shiftRight_eq_div_pow]
  omega

/-! ### Packed words -/

theorem toNat_append_add {n m : Nat} (x : BitVec n) (y : BitVec m) : (x ++ y).toNat = x.toNat * 2 ^ m + y.toNat := by
  rw [BitVec.toNat_append, ← Nat.shiftLeft_add_eq_or_of_lt y.isLt, Nat.shiftLeft_eq]

section
variable (op : BitVec 4) (ch wave : BitVec 2) (fsel durEn : BitVec 1) (vol : Byte) (fval dur : Word)

theorem packWord_toNat : (packWord op ch wave fsel durEn vol fval dur).toNat =
    dur.toNat * 2 ^ 64 + fval.toNat * 2 ^ 32 + vol.toNat * 2 ^ 16 + durEn.toNat * 2 ^ 9 + fsel.toNat * 2 ^ 8
      + wave.toNat * 2 ^ 6 + ch.toNat * 2 ^ 4 + op.toNat := by
  unfold packWord
  rw [BitVec.toNat_cast]
  simp only [toNat_append_add]
  simp
  omega

@[simp] theorem fieldOp_packWord : fieldOp (packWord op ch wave fsel durEn vol fval dur) = op := by
  apply BitVec.eq_of_toNat_eq
  rw [fieldOp_toNat, packWord_toNat]
  omega
@[simp] theorem fieldCh_packWord : fieldCh (packWord op ch wave fsel durEn vol fval dur) = ch := by
  apply BitVec.eq_of_toNat_eq
  rw [fieldCh_toNat, packWord_toNat]
  omega
@[simp] theorem fieldWave_packWord : fieldWave (packWord op ch wave fsel durEn vol fval dur) = wave := by
  apply BitVec.eq_of_toNat_eq
  rw [fieldWave_toNat, packWord_toNat]
  omega
@[simp] theorem fieldFsel_packWord : fieldFsel (packWord op ch wave fsel durEn vol fval dur) = fsel := by
  apply BitVec.eq_of_toNat_eq
  rw [fieldFsel_toNat, packWord_toNat]
  omega
@[simp] theorem fieldDurEn_packWord : fieldDurEn (packWord op ch wave fsel durEn vol fval dur) = durEn := by
  apply BitVec.eq_of_toNat_eq
  rw [fieldDurEn_toNat, packWord_toNat]
  omega
@[simp] theorem fieldRsv0_packWord : fieldRsv0 (packWord op ch wave fsel durEn vol fval dur) = 0 := by
  apply BitVec.eq_of_toNat_eq
  rw [fieldRsv0_toNat, packWord_toNat]
  change _ = 0
  omega
@[simp] theorem fieldVol_packWord : fieldVol (packWord op ch wave fsel durEn vol fval dur) = vol := by
  apply BitVec.eq_of_toNat_eq
  rw [fieldVol_toNat, packWord_toNat]
  omega
@[simp] theorem fieldRsv1_packWord : fieldRsv1 (packWord op ch wave fsel durEn vol fval dur) = 0 := by
  apply BitVec.eq_of_toNat_eq
  rw [fieldRsv1_toNat, packWord_toNat]
  change _ = 0
  omega
@[simp] theorem fieldFval_packWord : fieldFval (packWord op ch wave fsel durEn vol fval dur) = fval := by
  apply BitVec.eq_of_toNat_eq
  rw [fieldFval_toNat, packWord_toNat]
  omega
@[simp] theorem fieldDur_packWord : fieldDur (packWord op ch wave fsel durEn vol fval dur) = dur := by
  apply BitVec.eq_of_toNat_eq
  rw [fieldDur_toNat, packWord_toNat]
  omega

@[simp] theorem fieldNote_packWord (note : BitVec 7) :
    fieldNote (packWord op ch wave fsel durEn vol (note.setWidth 32) dur) = note := by
  apply BitVec.eq_of_toNat_eq
  rw [fieldNote_toNat, packWord_toNat, BitVec.toNat_setWidth]
  omega
@[simp] theorem fieldFvalHigh_packWord (note : BitVec 7) :
    fieldFvalHigh (packWord op ch wave fsel durEn vol (note.setWidth 32) dur) = 0 := by
  apply BitVec.eq_of_toNat_eq
  rw [fieldFvalHigh_toNat, packWord_toNat, BitVec.toNat_setWidth]
  change _ = 0
  omega
end

/-- A word whose reserved fields are 0 is the packed word of its fields. -/
theorem packWord_fields (cw : CommandWord) (h0 : fieldRsv0 cw = 0) (h1 : fieldRsv1 cw = 0) :
    packWord (fieldOp cw) (fieldCh cw) (fieldWave cw) (fieldFsel cw) (fieldDurEn cw) (fieldVol cw) (fieldFval cw) (fieldDur cw)
      = cw := by
  apply BitVec.eq_of_toNat_eq
  have h0' := congrArg BitVec.toNat h0
  have h1' := congrArg BitVec.toNat h1
  rw [fieldRsv0_toNat] at h0'
  rw [fieldRsv1_toNat] at h1'
  rw [packWord_toNat, fieldOp_toNat, fieldCh_toNat, fieldWave_toNat, fieldFsel_toNat, fieldDurEn_toNat, fieldVol_toNat,
    fieldFval_toNat, fieldDur_toNat]
  simp at h0' h1'
  omega

/-- A frequency field whose high bits are 0 is its note index, widened. -/
theorem note_setWidth (cw : CommandWord) (h : fieldFvalHigh cw = 0) : (fieldNote cw).setWidth 32 = fieldFval cw := by
  apply BitVec.eq_of_toNat_eq
  have h' := congrArg BitVec.toNat h
  rw [fieldFvalHigh_toNat] at h'
  rw [BitVec.toNat_setWidth, fieldNote_toNat, fieldFval_toNat]
  simp at h'
  omega

/-- A note index names an entry exactly when it is at most 108. -/
theorem noteInTable_iff (k : BitVec 7) : noteInTable k = true ↔ k.toNat ≤ 108 := by
  rw [noteInTable, decide_eq_true_iff, Config.numNotes]
  omega

theorem noteInTable_eq_false_iff (k : BitVec 7) : noteInTable k = false ↔ 109 ≤ k.toNat := by
  rw [noteInTable, decide_eq_false_iff_not, Config.numNotes]
  omega

theorem bit_eq_one_of_ne_zero {b : BitVec 1} (h : b ≠ 0) : b = 1 := by
  revert b; decide

/-- The one thing a decoded word can be: what the decoder read, as a case for each command. -/
theorem decode_cases {cw : CommandWord} {i : Instr} (h : decode cw = .ok i) :
    (fieldRsv0 cw = 0 ∧ fieldRsv1 cw = 0) ∧
    ((fieldOp cw = 1 ∧ fieldFsel cw = 0 ∧ fieldDurEn cw = 0 ∧ fieldDur cw = 0 ∧
        i = .playf (channelOf (fieldCh cw)) (fieldFval cw) (fieldVol cw) (waveformOf (fieldWave cw))) ∨
      (fieldOp cw = 1 ∧ fieldFsel cw = 0 ∧ fieldDurEn cw = 1 ∧
        i = .playfd (channelOf (fieldCh cw)) (fieldFval cw) (fieldDur cw) (fieldVol cw) (waveformOf (fieldWave cw))) ∨
      (fieldOp cw = 1 ∧ fieldFsel cw = 1 ∧ fieldDurEn cw = 0 ∧ fieldDur cw = 0 ∧ fieldFvalHigh cw = 0 ∧
        noteInTable (fieldNote cw) = true ∧
        i = .playn (channelOf (fieldCh cw)) (fieldNote cw) (fieldVol cw) (waveformOf (fieldWave cw))) ∨
      (fieldOp cw = 1 ∧ fieldFsel cw = 1 ∧ fieldDurEn cw = 1 ∧ fieldFvalHigh cw = 0 ∧
        noteInTable (fieldNote cw) = true ∧
        i = .playnd (channelOf (fieldCh cw)) (fieldNote cw) (fieldDur cw) (fieldVol cw) (waveformOf (fieldWave cw))) ∨
      (fieldOp cw = 2 ∧ fieldWave cw = 0 ∧ fieldFsel cw = 0 ∧ fieldDurEn cw = 0 ∧ fieldVol cw = 0 ∧ fieldFval cw = 0 ∧
        fieldDur cw = 0 ∧ i = .off (channelOf (fieldCh cw))) ∨
      (cw = 3 ∧ i = .next) ∨ (cw = 4 ∧ i = .rdsr)) := by
  unfold decode at h
  split at h
  · cases h
  next hr =>
  refine ⟨by simpa using hr, ?_⟩
  split at h
  next hop =>
    unfold decodePlay at h
    simp only at h
    split at h
    · cases h
    next hd =>
    split at h
    · cases h
    next hh =>
    split at h
    · cases h
    next hn =>
    split at h
    next hf =>
      split at h
      next he => cases h; exact .inl ⟨hop, hf, he, by simpa [he] using hd, rfl⟩
      next he => cases h; exact .inr (.inl ⟨hop, hf, bit_eq_one_of_ne_zero he, rfl⟩)
    next hf =>
      have hf1 := bit_eq_one_of_ne_zero hf
      have hh' : fieldFvalHigh cw = 0 := by simpa [hf1] using hh
      have hn' : noteInTable (fieldNote cw) = true := by simpa [hf1] using hn
      split at h
      next he => cases h; exact .inr (.inr (.inl ⟨hop, hf1, he, by simpa [he] using hd, hh', hn', rfl⟩))
      next he => cases h; exact .inr (.inr (.inr (.inl ⟨hop, hf1, bit_eq_one_of_ne_zero he, hh', hn', rfl⟩)))
  next =>
  split at h
  next hop =>
    unfold decodeOff at h
    split at h
    · cases h
    next hz =>
      cases h
      simp only [ne_eq, not_or, not_not] at hz
      obtain ⟨h1, h2, h3, h4, h5, h6⟩ := hz
      exact .inr (.inr (.inr (.inr (.inl ⟨hop, h1, h2, h3, h4, h5, h6, rfl⟩))))
  next =>
  split at h
  next =>
    unfold decodeBare at h
    split at h
    next hc => cases h; exact .inr (.inr (.inr (.inr (.inr (.inl ⟨hc, rfl⟩)))))
    · cases h
  next =>
  split at h
  next =>
    unfold decodeBare at h
    split at h
    next hc => cases h; exact .inr (.inr (.inr (.inr (.inr (.inr ⟨hc, rfl⟩)))))
    · cases h
  next => cases h

end Sys2Proof
end

