-- ==== Sys2Proof/Laws/State.lean ====
section
/-! SUPPORT. One lemma per field per update of the state, so that no proof unfolds a record update, and the read-after-write laws of the
oscillator file. -/

namespace Sys2Proof.Machine

/-! ### The oscillator file -/

@[simp] theorem OscFile.read_write_same (f : OscFile) (c : Channel) (o : Oscillator) : (f.write c o).read c = o := by
  cases c <;> rfl

@[simp] theorem OscFile.read_write_ne (f : OscFile) {c d : Channel} (o : Oscillator) (h : d ≠ c) :
    (f.write c o).read d = f.read d := by
  cases c <;> cases d <;> first | rfl | exact absurd rfl h

@[simp] theorem OscFile.read_map (g : Oscillator → Oscillator) (f : OscFile) (c : Channel) :
    (f.map g).read c = g (f.read c) := by
  cases c <;> rfl

@[simp] theorem OscFile.write_write_same (f : OscFile) (c : Channel) (o p : Oscillator) :
    (f.write c o).write c p = f.write c p := by
  cases c <;> rfl

theorem OscFile.write_comm (f : OscFile) {c d : Channel} (o p : Oscillator) (h : c ≠ d) :
    (f.write c o).write d p = (f.write d p).write c o := by
  cases c <;> cases d <;> first | rfl | exact absurd rfl h

/-- Two oscillator files with the same records are the same file. -/
theorem OscFile.ext_read {f g : OscFile} (h : ∀ c, f.read c = g.read c) : f = g := by
  cases f
  cases g
  have h0 := h .ch0
  have h1 := h .ch1
  have h2 := h .ch2
  have h3 := h .ch3
  simp_all [OscFile.read]

/-! ### Reading an oscillator through the state -/

theorem readOsc_def (s : State) (c : Channel) : readOsc s c = s.osc.read c := rfl

@[simp] theorem readOsc_inputs (s : State) (es : List HostInput) (c : Channel) :
    readOsc { s with inputs := es } c = readOsc s c := rfl
@[simp] theorem readOsc_responses (s : State) (rs : List Response) (c : Channel) :
    readOsc { s with responses := rs } c = readOsc s c := rfl
@[simp] theorem readOsc_fault (s : State) (b : Bool) (c : Channel) : readOsc { s with fault := b } c = readOsc s c := rfl
@[simp] theorem readOsc_sr (s : State) (r : Word) (c : Channel) : readOsc { s with sr := r } c = readOsc s c := rfl

/-! ### setFault -/

@[simp] theorem setFault_osc (s : State) : (setFault s).osc = s.osc := rfl
@[simp] theorem setFault_sr (s : State) : (setFault s).sr = s.sr := rfl
@[simp] theorem setFault_fault (s : State) : (setFault s).fault = true := rfl
@[simp] theorem setFault_inputs (s : State) : (setFault s).inputs = s.inputs := rfl
@[simp] theorem setFault_responses (s : State) : (setFault s).responses = s.responses := rfl

/-! ### writeOsc -/

@[simp] theorem writeOsc_osc (s : State) (c : Channel) (o : Oscillator) : (writeOsc s c o).osc = s.osc.write c o := rfl
@[simp] theorem writeOsc_sr (s : State) (c : Channel) (o : Oscillator) : (writeOsc s c o).sr = s.sr := rfl
@[simp] theorem writeOsc_fault (s : State) (c : Channel) (o : Oscillator) : (writeOsc s c o).fault = s.fault := rfl
@[simp] theorem writeOsc_inputs (s : State) (c : Channel) (o : Oscillator) : (writeOsc s c o).inputs = s.inputs := rfl
@[simp] theorem writeOsc_responses (s : State) (c : Channel) (o : Oscillator) : (writeOsc s c o).responses = s.responses := rfl

@[simp] theorem readOsc_writeOsc_same (s : State) (c : Channel) (o : Oscillator) : readOsc (writeOsc s c o) c = o := by
  simp [readOsc]

@[simp] theorem readOsc_writeOsc_ne (s : State) {c d : Channel} (o : Oscillator) (h : d ≠ c) :
    readOsc (writeOsc s c o) d = readOsc s d := by
  simp [readOsc, h]

/-! ### respond -/

@[simp] theorem respond_osc (k : RspKind) (w : Word) (s : State) : (respond k w s).osc = s.osc := rfl
@[simp] theorem respond_sr (k : RspKind) (w : Word) (s : State) : (respond k w s).sr = s.sr := rfl
@[simp] theorem respond_fault (k : RspKind) (w : Word) (s : State) : (respond k w s).fault = s.fault := rfl
@[simp] theorem respond_inputs (k : RspKind) (w : Word) (s : State) : (respond k w s).inputs = s.inputs := rfl
@[simp] theorem respond_responses (k : RspKind) (w : Word) (s : State) :
    (respond k w s).responses = s.responses ++ [⟨k, w⟩] := rfl
@[simp] theorem readOsc_respond (k : RspKind) (w : Word) (s : State) (c : Channel) :
    readOsc (respond k w s) c = readOsc s c := rfl

/-! ### raise -/

@[simp] theorem raise_osc (e : Fault) (s : State) : (raise e s).osc = s.osc := by cases e; rfl
@[simp] theorem raise_sr (e : Fault) (s : State) : (raise e s).sr = s.sr := by cases e; rfl
@[simp] theorem raise_fault (e : Fault) (s : State) : (raise e s).fault = true := by cases e; rfl
@[simp] theorem raise_inputs (e : Fault) (s : State) : (raise e s).inputs = s.inputs := by cases e; rfl
@[simp] theorem raise_responses (e : Fault) (s : State) : (raise e s).responses = s.responses ++ [⟨.err, 0⟩] := by
  cases e; rfl
@[simp] theorem readOsc_raise (e : Fault) (s : State) (c : Channel) : readOsc (raise e s) c = readOsc s c := by
  cases e; rfl

/-! ### The reset event -/

@[simp] theorem afterReset_sr (r : Word) (es : List HostInput) (rs : List Response) : (State.afterReset r es rs).sr = r := rfl
@[simp] theorem afterReset_fault (r : Word) (es : List HostInput) (rs : List Response) :
    (State.afterReset r es rs).fault = false := rfl
@[simp] theorem afterReset_inputs (r : Word) (es : List HostInput) (rs : List Response) :
    (State.afterReset r es rs).inputs = es := rfl
@[simp] theorem afterReset_responses (r : Word) (es : List HostInput) (rs : List Response) :
    (State.afterReset r es rs).responses = rs := rfl
@[simp] theorem readOsc_afterReset (r : Word) (es : List HostInput) (rs : List Response) (c : Channel) :
    readOsc (State.afterReset r es rs) c = .silent := by
  cases c <;> rfl

@[simp] theorem resetEvent_sr (r : Word) (s : State) : (resetEvent r s).sr = r := rfl
@[simp] theorem resetEvent_fault (r : Word) (s : State) : (resetEvent r s).fault = false := rfl
@[simp] theorem resetEvent_inputs (r : Word) (s : State) : (resetEvent r s).inputs = s.inputs := rfl
@[simp] theorem resetEvent_responses (r : Word) (s : State) : (resetEvent r s).responses = s.responses := rfl
@[simp] theorem readOsc_resetEvent (r : Word) (s : State) (c : Channel) : readOsc (resetEvent r s) c = .silent := by
  cases c <;> rfl

/-! ### doPlay -/

@[simp] theorem doPlay_sr (c : Channel) (f : Word) (d : Duration) (v : Byte) (w : Waveform) (s : State) :
    (doPlay c f d v w s).sr = s.sr := rfl
@[simp] theorem doPlay_fault (c : Channel) (f : Word) (d : Duration) (v : Byte) (w : Waveform) (s : State) :
    (doPlay c f d v w s).fault = s.fault := rfl
@[simp] theorem doPlay_inputs (c : Channel) (f : Word) (d : Duration) (v : Byte) (w : Waveform) (s : State) :
    (doPlay c f d v w s).inputs = s.inputs := rfl
@[simp] theorem doPlay_responses (c : Channel) (f : Word) (d : Duration) (v : Byte) (w : Waveform) (s : State) :
    (doPlay c f d v w s).responses = s.responses ++ [⟨.ack, 0⟩] := rfl
@[simp] theorem readOsc_doPlay_same (c : Channel) (f : Word) (d : Duration) (v : Byte) (w : Waveform) (s : State) :
    readOsc (doPlay c f d v w s) c = playedOsc s.sr f d v w := by
  simp [doPlay]
@[simp] theorem readOsc_doPlay_ne {c e : Channel} (f : Word) (d : Duration) (v : Byte) (w : Waveform) (s : State)
    (h : e ≠ c) : readOsc (doPlay c f d v w s) e = readOsc s e := by
  simp [doPlay, h]

/-! ### tickWith -/

@[simp] theorem tickWith_sr (rom : Rom) (s : State) : (tickWith rom s).sr = s.sr := rfl
@[simp] theorem tickWith_fault (rom : Rom) (s : State) : (tickWith rom s).fault = s.fault := rfl
@[simp] theorem tickWith_inputs (rom : Rom) (s : State) : (tickWith rom s).inputs = s.inputs := rfl
@[simp] theorem tickWith_responses (rom : Rom) (s : State) :
    (tickWith rom s).responses = s.responses ++ [⟨.sample, sampleData (nextSample rom s.osc)⟩] := rfl
@[simp] theorem readOsc_tickWith (rom : Rom) (s : State) (c : Channel) :
    readOsc (tickWith rom s) c = steppedOsc (readOsc s c) := by
  cases c <;> rfl

/-! ### presentWord -/

@[simp] theorem presentWord_inputs (cw : CommandWord) (s : State) :
    (presentWord cw s).inputs = .command cw :: s.inputs := rfl
@[simp] theorem presentWord_osc (cw : CommandWord) (s : State) : (presentWord cw s).osc = s.osc := rfl
@[simp] theorem presentWord_sr (cw : CommandWord) (s : State) : (presentWord cw s).sr = s.sr := rfl
@[simp] theorem presentWord_fault (cw : CommandWord) (s : State) : (presentWord cw s).fault = s.fault := rfl
@[simp] theorem presentWord_responses (cw : CommandWord) (s : State) : (presentWord cw s).responses = s.responses := rfl

/-! ### Oscillator records -/

@[simp] theorem silencedOsc_phase (o : Oscillator) : (silencedOsc o).phase = 0 := rfl
@[simp] theorem silencedOsc_step (o : Oscillator) : (silencedOsc o).step = o.step := rfl
@[simp] theorem silencedOsc_vol (o : Oscillator) : (silencedOsc o).vol = 0 := rfl
@[simp] theorem silencedOsc_durActive (o : Oscillator) : (silencedOsc o).durActive = false := rfl
@[simp] theorem silencedOsc_durCount (o : Oscillator) : (silencedOsc o).durCount = 0 := rfl
@[simp] theorem silencedOsc_wave (o : Oscillator) : (silencedOsc o).wave = o.wave := rfl

@[simp] theorem playedOsc_phase (r f : Word) (d : Duration) (v : Byte) (w : Waveform) :
    (playedOsc r f d v w).phase = 0 := rfl
@[simp] theorem playedOsc_step (r f : Word) (d : Duration) (v : Byte) (w : Waveform) :
    (playedOsc r f d v w).step = phaseStep r f := rfl
@[simp] theorem playedOsc_vol (r f : Word) (d : Duration) (v : Byte) (w : Waveform) :
    (playedOsc r f d v w).vol = playedVolume d v := rfl
@[simp] theorem playedOsc_durActive (r f : Word) (d : Duration) (v : Byte) (w : Waveform) :
    (playedOsc r f d v w).durActive = playedActive d := rfl
@[simp] theorem playedOsc_durCount (r f : Word) (d : Duration) (v : Byte) (w : Waveform) :
    (playedOsc r f d v w).durCount = playedCount d := rfl
@[simp] theorem playedOsc_wave (r f : Word) (d : Duration) (v : Byte) (w : Waveform) :
    (playedOsc r f d v w).wave = w := rfl

@[simp] theorem timerStep_step (o : Oscillator) : (timerStep o).step = o.step := by
  simp only [timerStep]; split <;> (try split) <;> rfl
@[simp] theorem timerStep_wave (o : Oscillator) : (timerStep o).wave = o.wave := by
  simp only [timerStep]; split <;> (try split) <;> rfl
@[simp] theorem timerStep_phase (o : Oscillator) : (timerStep o).phase = o.phase := by
  simp only [timerStep]; split <;> (try split) <;> rfl

@[simp] theorem steppedOsc_phase (o : Oscillator) : (steppedOsc o).phase = advancedPhase o := rfl
@[simp] theorem steppedOsc_step (o : Oscillator) : (steppedOsc o).step = o.step := timerStep_step o
@[simp] theorem steppedOsc_wave (o : Oscillator) : (steppedOsc o).wave = o.wave := timerStep_wave o
@[simp] theorem steppedOsc_vol (o : Oscillator) : (steppedOsc o).vol = (timerStep o).vol := rfl
@[simp] theorem steppedOsc_durActive (o : Oscillator) : (steppedOsc o).durActive = (timerStep o).durActive := rfl
@[simp] theorem steppedOsc_durCount (o : Oscillator) : (steppedOsc o).durCount = (timerStep o).durCount := rfl

end Sys2Proof.Machine
end

