-- ==== Sys2Proof/Laws/Exec.lean ====
section
/-! SUPPORT. What each command does, once: the state every meaning answers with, how meanings treat the environment, the cases of a step,
and runs one event at a time. -/

namespace Sys2Proof.Machine

open Sys2Proof.Safety

/-! ### One equation per command -/

theorem exec_playf (c : Channel) (f : Word) (v : Byte) (w : Waveform) (s : State) :
    exec (.playf c f v w) s = .next (doPlay c f none v w s) := rfl
theorem exec_playfd (c : Channel) (f d : Word) (v : Byte) (w : Waveform) (s : State) :
    exec (.playfd c f d v w) s = .next (doPlay c f (some d) v w s) := rfl
theorem exec_playn (c : Channel) (k : BitVec 7) (v : Byte) (w : Waveform) (s : State) :
    exec (.playn c k v w) s = .next (playNote c k none v w s) := rfl
theorem exec_playnd (c : Channel) (k : BitVec 7) (d : Word) (v : Byte) (w : Waveform) (s : State) :
    exec (.playnd c k d v w) s = .next (playNote c k (some d) v w s) := rfl
theorem exec_off (c : Channel) (s : State) :
    exec (.off c) s = .next (respond .ack 0 (writeOsc s c (silencedOsc (readOsc s c)))) := rfl
theorem exec_nextTick (s : State) : exec .next s = .next (tickWith Config.wt s) := rfl
theorem exec_rdsr (s : State) : exec .rdsr s = .next (respond .rate s.sr s) := rfl

/-! ### The note table -/

/-- The table has an entry exactly for the indices 0 to 108. -/
theorem lutRead_of_le {k : BitVec 7} (h : k.toNat ≤ 108) : ∃ f, lutRead k = some f := by
  have hl : k.toNat < noteTable.length := by
    have : noteTable.length = 109 := by decide
    omega
  exact ⟨_, by rw [lutRead, List.getElem?_eq_getElem hl]; rfl⟩

theorem lutRead_of_gt {k : BitVec 7} (h : 108 < k.toNat) : lutRead k = none := by
  have hl : noteTable.length ≤ k.toNat := by
    have : noteTable.length = 109 := by decide
    omega
  rw [lutRead, List.getElem?_eq_none hl]; rfl

theorem playNote_of_some {k : BitVec 7} {f : Word} (h : lutRead k = some f) (c : Channel) (d : Duration) (v : Byte)
    (w : Waveform) (s : State) : playNote c k d v w s = doPlay c f d v w s := by
  rw [playNote, h]

theorem playNote_of_none {k : BitVec 7} (h : lutRead k = none) (c : Channel) (d : Duration) (v : Byte)
    (w : Waveform) (s : State) : playNote c k d v w s = raise .illegalCommand s := by
  rw [playNote, h]

/-- A PLAY of a well-formed note is a `do_play` of some frequency. -/
theorem playNote_cases (c : Channel) (k : BitVec 7) (d : Duration) (v : Byte) (w : Waveform) (s : State) :
    (∃ f, lutRead k = some f ∧ playNote c k d v w s = doPlay c f d v w s) ∨
    (lutRead k = none ∧ playNote c k d v w s = raise .illegalCommand s) := by
  cases h : lutRead k with
  | some f => exact .inl ⟨f, rfl, playNote_of_some h ..⟩
  | none => exact .inr ⟨rfl, playNote_of_none h ..⟩

/-! ### Commands and the environment -/

/-- A command neither reads nor writes what the host still presents, and answers after whatever was answered before. -/
theorem exec_environment (i : Instr) (s : State) : ∃ (t : State) (r : Response),
    t.inputs = s.inputs ∧ t.responses = s.responses ++ [r] ∧
    ∀ es past, exec i { s with inputs := es, responses := past } = .next { t with inputs := es, responses := past ++ [r] } := by
  cases i with
  | playf c f v w => exact ⟨doPlay c f none v w s, ⟨.ack, 0⟩, rfl, rfl, fun _ _ => rfl⟩
  | playfd c f d v w => exact ⟨doPlay c f (some d) v w s, ⟨.ack, 0⟩, rfl, rfl, fun _ _ => rfl⟩
  | playn c k v w =>
    rcases playNote_cases c k none v w s with ⟨f, h, -⟩ | ⟨h, -⟩
    · exact ⟨doPlay c f none v w s, ⟨.ack, 0⟩, rfl, rfl, fun _ _ => by rw [exec_playn, playNote_of_some h]; rfl⟩
    · exact ⟨raise .illegalCommand s, ⟨.err, 0⟩, rfl, rfl, fun _ _ => by rw [exec_playn, playNote_of_none h]; rfl⟩
  | playnd c k d v w =>
    rcases playNote_cases c k (some d) v w s with ⟨f, h, -⟩ | ⟨h, -⟩
    · exact ⟨doPlay c f (some d) v w s, ⟨.ack, 0⟩, rfl, rfl, fun _ _ => by rw [exec_playnd, playNote_of_some h]; rfl⟩
    · exact ⟨raise .illegalCommand s, ⟨.err, 0⟩, rfl, rfl, fun _ _ => by rw [exec_playnd, playNote_of_none h]; rfl⟩
  | off c => exact ⟨respond .ack 0 (writeOsc s c (silencedOsc (readOsc s c))), ⟨.ack, 0⟩, rfl, rfl, fun _ _ => rfl⟩
  | next => exact ⟨tickWith Config.wt s, ⟨.sample, sampleData (nextSample Config.wt s.osc)⟩, rfl, rfl, fun _ _ => rfl⟩
  | rdsr => exact ⟨respond .rate s.sr s, ⟨.rate, s.sr⟩, rfl, rfl, fun _ _ => rfl⟩

/-- Every command of every state goes on, and leaves the host's list alone. -/
theorem exec_goesOn (i : Instr) (s : State) : ∃ t, exec i s = .next t ∧ t.inputs = s.inputs := by
  obtain ⟨t, r, hi, hr, h⟩ := exec_environment i s
  refine ⟨{ t with inputs := s.inputs, responses := s.responses ++ [r] }, h s.inputs s.responses, rfl⟩

theorem exec_inputs {i : Instr} {s t : State} (h : exec i s = .next t) : t.inputs = s.inputs := by
  obtain ⟨u, hu, hi⟩ := exec_goesOn i s
  rw [hu] at h
  cases h
  exact hi

/-- What a command does to one channel: a tick, nothing, a note started in it, or its silencing. -/
theorem exec_channel_cases {i : Instr} {s t : State} (h : exec i s = .next t) (c : Channel) :
    (i = .next ∧ readOsc t c = steppedOsc (readOsc s c)) ∨
    (i ≠ .next ∧ readOsc t c = readOsc s c) ∨
    (i ≠ .next ∧ playsOn c i = true ∧ channelAddressed i = some c ∧
      ∃ f d v w, readOsc t c = playedOsc s.sr f d v w) ∨
    (i = .off c ∧ readOsc t c = silencedOsc (readOsc s c)) := by
  have play : ∀ (e : Channel) (f : Word) (d : Duration) (v : Byte) (w : Waveform),
      (c = e ∧ readOsc (doPlay e f d v w s) c = playedOsc s.sr f d v w) ∨ readOsc (doPlay e f d v w s) c = readOsc s c := by
    intro e f d v w
    by_cases hc : c = e
    · subst hc; exact .inl ⟨rfl, readOsc_doPlay_same ..⟩
    · exact .inr (readOsc_doPlay_ne _ _ _ _ _ hc)
  cases i with
  | playf e f v w =>
    cases h
    rcases play e f none v w with ⟨rfl, hp⟩ | hp
    · exact .inr (.inr (.inl ⟨by simp, by simp [playsOn], rfl, _, _, _, _, hp⟩))
    · exact .inr (.inl ⟨by simp, hp⟩)
  | playfd e f d v w =>
    cases h
    rcases play e f (some d) v w with ⟨rfl, hp⟩ | hp
    · exact .inr (.inr (.inl ⟨by simp, by simp [playsOn], rfl, _, _, _, _, hp⟩))
    · exact .inr (.inl ⟨by simp, hp⟩)
  | playn e k v w =>
    rcases playNote_cases e k none v w s with ⟨f, -, hk⟩ | ⟨-, hk⟩ <;> rw [exec_playn, hk] at h <;> cases h
    · rcases play e f none v w with ⟨rfl, hp⟩ | hp
      · exact .inr (.inr (.inl ⟨by simp, by simp [playsOn], rfl, _, _, _, _, hp⟩))
      · exact .inr (.inl ⟨by simp, hp⟩)
    · exact .inr (.inl ⟨by simp, by simp⟩)
  | playnd e k d v w =>
    rcases playNote_cases e k (some d) v w s with ⟨f, -, hk⟩ | ⟨-, hk⟩ <;> rw [exec_playnd, hk] at h <;> cases h
    · rcases play e f (some d) v w with ⟨rfl, hp⟩ | hp
      · exact .inr (.inr (.inl ⟨by simp, by simp [playsOn], rfl, _, _, _, _, hp⟩))
      · exact .inr (.inl ⟨by simp, hp⟩)
    · exact .inr (.inl ⟨by simp, by simp⟩)
  | off e =>
    rw [exec_off] at h
    cases h
    by_cases hc : c = e
    · subst hc; exact .inr (.inr (.inr ⟨rfl, by simp⟩))
    · exact .inr (.inl ⟨by simp, by simp [hc]⟩)
  | next => cases h; exact .inl ⟨rfl, readOsc_tickWith ..⟩
  | rdsr => cases h; exact .inr (.inl ⟨by simp, by simp⟩)

/-- A well-formed command on a channel writes one record, made of the rate and the record before; a PLAY does not look at the latter. -/
theorem exec_addressed {i : Instr} {c : Channel} (hc : channelAddressed i = some c) (hw : i.wellFormed = true) :
    ∃ g : Word → Oscillator → Oscillator,
      (∀ s, exec i s = .next (respond .ack 0 (writeOsc s c (g s.sr (readOsc s c))))) ∧
      (playsOn c i = true → ∀ r o p, g r o = g r p) := by
  cases i with
  | playf e f v w => cases hc; exact ⟨fun r _ => playedOsc r f none v w, fun s => rfl, fun _ _ _ _ => rfl⟩
  | playfd e f d v w => cases hc; exact ⟨fun r _ => playedOsc r f (some d) v w, fun s => rfl, fun _ _ _ _ => rfl⟩
  | playn e k v w =>
    cases hc
    obtain ⟨f, hf⟩ := lutRead_of_le ((noteInTable_iff k).1 hw)
    exact ⟨fun r _ => playedOsc r f none v w, fun s => by rw [exec_playn, playNote_of_some hf]; rfl, fun _ _ _ _ => rfl⟩
  | playnd e k d v w =>
    cases hc
    obtain ⟨f, hf⟩ := lutRead_of_le ((noteInTable_iff k).1 hw)
    exact ⟨fun r _ => playedOsc r f (some d) v w, fun s => by rw [exec_playnd, playNote_of_some hf]; rfl,
      fun _ _ _ _ => rfl⟩
  | off e => cases hc; exact ⟨fun _ o => silencedOsc o, fun s => rfl, fun h => by cases h⟩
  | next => cases hc
  | rdsr => cases hc

/-! ### Accepting one event -/

theorem acceptWord_of_ok {cw : CommandWord} {i : Instr} (h : decode cw = .ok i) (s : State) :
    acceptWord cw s = exec i s := by
  rw [acceptWord, h]

theorem acceptWord_of_error {cw : CommandWord} {e : IllegalReason} (h : decode cw = .error e) (s : State) :
    acceptWord cw s = .next (raise .illegalCommand s) := by
  rw [acceptWord, h]

theorem acceptReset_of_ne {rate : Word} (h : rate ≠ 0) (s : State) : acceptReset rate s = .next (resetEvent rate s) :=
  if_neg h

/-- The cases of accepting one event. -/
theorem accept_cases {e : HostInput} {s t : State} (h : accept e s = .next t) :
    (∃ cw i, e = .command cw ∧ decode cw = .ok i ∧ exec i s = .next t) ∨
    (∃ cw r, e = .command cw ∧ decode cw = .error r ∧ t = raise .illegalCommand s) ∨
    (∃ rate, e = .reset rate ∧ rate ≠ 0 ∧ t = resetEvent rate s) := by
  cases e with
  | command cw =>
    change acceptWord cw s = _ at h
    cases hd : decode cw with
    | ok i => rw [acceptWord_of_ok hd] at h; exact .inl ⟨cw, i, rfl, hd, h⟩
    | error r => rw [acceptWord_of_error hd] at h; cases h; exact .inr (.inl ⟨cw, r, rfl, hd, rfl⟩)
  | reset rate =>
    change acceptReset rate s = _ at h
    by_cases h0 : rate = 0
    · simp [acceptReset, h0] at h
    · rw [acceptReset_of_ne h0] at h; cases h; exact .inr (.inr ⟨rate, rfl, h0, rfl⟩)

/-- What an event does to one channel. -/
theorem accept_channel_cases {e : HostInput} {s t : State} (h : accept e s = .next t) (c : Channel) :
    (isTick e = true ∧ readOsc t c = steppedOsc (readOsc s c)) ∨
    (isTick e = false ∧ readOsc t c = readOsc s c) ∨
    (isTick e = false ∧ carries (playsOn c) e = true ∧ addresses c e = true) ∨
    (isTick e = false ∧ addresses c e = true ∧ readOsc t c = silencedOsc (readOsc s c)) ∨
    (isReset e = true ∧ readOsc t c = .silent) := by
  rcases accept_cases h with ⟨cw, i, rfl, hd, hx⟩ | ⟨cw, r, rfl, hd, rfl⟩ | ⟨rate, rfl, hr, rfl⟩
  · simp only [isTick, carries, hd, addresses, isReset]
    rcases exec_channel_cases hx c with ⟨hi, ho⟩ | ⟨hi, ho⟩ | ⟨hi, hp, ha, -⟩ | ⟨rfl, ho⟩
    · simp [hi, ho]
    · simp [hi, ho]
    · simp [hi, hp, ha]
    · simp [channelAddressed, ho]
  · simp [isTick, carries, hd]
  · simp [isReset]

/-- Accepting an event leaves the rest of the host's list alone. -/
theorem accept_inputs {e : HostInput} {s t : State} (h : accept e s = .next t) : t.inputs = s.inputs := by
  rcases accept_cases h with ⟨_, _, -, -, h⟩ | ⟨_, _, -, -, rfl⟩ | ⟨_, -, -, rfl⟩
  · exact exec_inputs h
  · simp
  · simp

/-- An event that is not a reset goes on. -/
theorem accept_goesOn {e : HostInput} (he : isReset e = false) (s : State) : ∃ t, accept e s = .next t := by
  cases e with
  | command cw =>
    cases hd : decode cw with
    | ok i => obtain ⟨t, ht, -⟩ := exec_goesOn i s; exact ⟨t, by rw [← ht]; exact acceptWord_of_ok hd s⟩
    | error r => exact ⟨_, acceptWord_of_error hd s⟩
  | reset rate => cases he

/-- Accepting an event does not depend on what the host presents after it. -/
theorem accept_withInputs {e : HostInput} {s t : State} (h : accept e s = .next t) (es : List HostInput) :
    accept e { s with inputs := es } = .next { t with inputs := es } := by
  rcases accept_cases h with ⟨cw, i, rfl, hd, hx⟩ | ⟨cw, r, rfl, hd, rfl⟩ | ⟨rate, rfl, hr, rfl⟩
  · obtain ⟨u, r, -, -, hu⟩ := exec_environment i s
    have he := hu s.inputs s.responses
    rw [show ({ s with inputs := s.inputs, responses := s.responses } : State) = s from rfl, hx] at he
    cases he
    exact (acceptWord_of_ok hd _).trans (hu es s.responses)
  · exact acceptWord_of_error hd _
  · exact acceptReset_of_ne hr _

/-! ### One step -/

theorem step_idle {s : State} (h : s.inputs = []) : step s = .next s := by
  rw [step, h]

theorem step_cons {s : State} {e : HostInput} {rest : List HostInput} (h : s.inputs = e :: rest) :
    step s = accept e { s with inputs := rest } := by
  rw [step, h]

/-- The cases of a step that goes on: idle, or the host's oldest event accepted. -/
theorem step_cases {s t : State} (h : step s = .next t) :
    (s.inputs = [] ∧ t = s) ∨ (∃ e rest, s.inputs = e :: rest ∧ accept e { s with inputs := rest } = .next t) := by
  cases hs : s.inputs with
  | nil => rw [step_idle hs] at h; cases h; exact .inl ⟨rfl, rfl⟩
  | cons e rest => rw [step_cons hs] at h; exact .inr ⟨e, rest, rfl, h⟩

/-! ### Runs -/

theorem run_succ (k : Nat) (s : State) : Sys2Proof.core.run (k + 1) s =
    match step s with
    | .next t => Sys2Proof.core.run k t
    | .fault r => .fault r
    | .refused r => .refused r := by
  refine Eq.trans (Host.Core.run.eq_2 Sys2Proof.core s k) ?_
  cases h : step s <;> rw [show Sys2Proof.core.step s = _ from h]

theorem runAll_nil (s : State) : runAll [] s = .next { s with inputs := [] } := rfl

/-- A run takes its first event and goes on with the rest. -/
theorem runAll_cons (e : HostInput) (es : List HostInput) (s : State) : runAll (e :: es) s =
    match accept e { s with inputs := es } with
    | .next t => runAll es t
    | .fault r => .fault r
    | .refused r => .refused r := by
  rw [runAll, List.length_cons, run_succ, step_cons (s := { s with inputs := e :: es }) rfl]
  cases h : accept e { s with inputs := es } with
  | next t =>
    have hi : t.inputs = es := accept_inputs h
    change Sys2Proof.core.run es.length t = runAll es t
    rw [runAll, ← hi]
  | fault r => rfl
  | refused r => rfl

/-- A run that goes on accepted its first event. -/
theorem runAll_cons_next {e : HostInput} {es : List HostInput} {s t : State} (h : runAll (e :: es) s = .next t) :
    ∃ u, accept e { s with inputs := es } = .next u ∧ runAll es u = .next t := by
  rw [runAll_cons] at h
  cases hu : accept e { s with inputs := es } with
  | next u => rw [hu] at h; exact ⟨u, rfl, h⟩
  | fault r => rw [hu] at h; cases h
  | refused r => rw [hu] at h; cases h

/-- A run with no reset goes on to its end. -/
theorem runAll_goesOn {es : List HostInput} (h : ∀ e ∈ es, isReset e = false) (s : State) : ∃ t, runAll es s = .next t := by
  induction es generalizing s with
  | nil => exact ⟨_, runAll_nil s⟩
  | cons e es ih =>
    obtain ⟨t, ht⟩ := accept_goesOn (h e (by simp)) { s with inputs := es }
    rw [runAll_cons, ht]
    exact ih (fun e he => h e (by simp [he])) t

end Sys2Proof.Machine
end

