-- ==== Sys2Proof/Laws/OpcodeRows.lean ====
section
/-! SUPPORT. What it is for a word to select a row of the opcode map, field by field: a mask and a pattern over 96 bits come apart into
conditions on the fields of the word. -/

namespace Sys2Proof

/-- A word from ALL its fields, the reserved ones among them. -/
def wordOfFields (op : BitVec 4) (ch wave : BitVec 2) (fsel durEn : BitVec 1) (rsv0 : BitVec 6) (vol rsv1 : BitVec 8)
    (note : BitVec 7) (high : BitVec 25) (dur : Word) : CommandWord :=
  (dur ++ high ++ note ++ rsv1 ++ vol ++ rsv0 ++ durEn ++ fsel ++ wave ++ ch ++ op).cast rfl

theorem append_inj {n m : Nat} {x y : BitVec n} {u v : BitVec m} : x ++ u = y ++ v ↔ x = y ∧ u = v := by
  refine ⟨fun h => ?_, by rintro ⟨rfl, rfl⟩; rfl⟩
  have hn := congrArg BitVec.toNat h
  rw [toNat_append_add, toNat_append_add] at hn
  have low : u.toNat = v.toNat := by
    have hm := congrArg (· % 2 ^ m) hn
    simpa only [Nat.mul_add_mod_self_right, Nat.mod_eq_of_lt u.isLt, Nat.mod_eq_of_lt v.isLt] using hm
  rw [low] at hn
  exact ⟨BitVec.eq_of_toNat_eq (Nat.eq_of_mul_eq_mul_right (Nat.two_pow_pos m) (Nat.add_right_cancel hn)),
    BitVec.eq_of_toNat_eq low⟩

/-- Every word is the word of its fields. -/
theorem wordOfFields_fields (cw : CommandWord) :
    wordOfFields (fieldOp cw) (fieldCh cw) (fieldWave cw) (fieldFsel cw) (fieldDurEn cw) (fieldRsv0 cw) (fieldVol cw)
      (fieldRsv1 cw) (fieldNote cw) (fieldFvalHigh cw) (fieldDur cw) = cw := by
  apply BitVec.eq_of_toNat_eq
  unfold wordOfFields
  rw [BitVec.toNat_cast]
  simp only [toNat_append_add]
  rw [fieldOp_toNat, fieldCh_toNat, fieldWave_toNat, fieldFsel_toNat, fieldDurEn_toNat, fieldRsv0_toNat, fieldVol_toNat,
    fieldRsv1_toNat, fieldNote_toNat, fieldFvalHigh_toNat, fieldDur_toNat]
  omega

theorem and_wordOfFields (op op' : BitVec 4) (ch ch' wave wave' : BitVec 2) (fsel fsel' durEn durEn' : BitVec 1)
    (rsv0 rsv0' : BitVec 6) (vol vol' rsv1 rsv1' : BitVec 8) (note note' : BitVec 7) (high high' : BitVec 25)
    (dur dur' : Word) :
    wordOfFields op ch wave fsel durEn rsv0 vol rsv1 note high dur
        &&& wordOfFields op' ch' wave' fsel' durEn' rsv0' vol' rsv1' note' high' dur'
      = wordOfFields (op &&& op') (ch &&& ch') (wave &&& wave') (fsel &&& fsel') (durEn &&& durEn') (rsv0 &&& rsv0')
          (vol &&& vol') (rsv1 &&& rsv1') (note &&& note') (high &&& high') (dur &&& dur') := by
  unfold wordOfFields
  simp only [← BitVec.and_append]
  rfl

theorem wordOfFields_inj (op op' : BitVec 4) (ch ch' wave wave' : BitVec 2) (fsel fsel' durEn durEn' : BitVec 1)
    (rsv0 rsv0' : BitVec 6) (vol vol' rsv1 rsv1' : BitVec 8) (note note' : BitVec 7) (high high' : BitVec 25)
    (dur dur' : Word) :
    wordOfFields op ch wave fsel durEn rsv0 vol rsv1 note high dur
        = wordOfFields op' ch' wave' fsel' durEn' rsv0' vol' rsv1' note' high' dur' ↔
      (op = op' ∧ ch = ch' ∧ wave = wave' ∧ fsel = fsel' ∧ durEn = durEn' ∧ rsv0 = rsv0' ∧ vol = vol' ∧ rsv1 = rsv1' ∧
        note = note' ∧ high = high' ∧ dur = dur') := by
  have cast_inj : ∀ x y : BitVec (32 + 25 + 7 + 8 + 8 + 6 + 1 + 1 + 2 + 2 + 4),
      (x.cast rfl : CommandWord) = y.cast rfl ↔ x = y := fun _ _ => Iff.rfl
  unfold wordOfFields
  rw [cast_inj]
  simp only [append_inj, and_assoc]
  constructor <;>
  · rintro ⟨h1, h2, h3, h4, h5, h6, h7, h8, h9, h10, h11⟩
    exact ⟨h11, h10, h9, h8, h7, h6, h5, h4, h3, h2, h1⟩

/-- A masked word equals a pattern exactly when it does so in each field. -/
theorem mask_eq_iff_fields (cw mask pattern : CommandWord) : cw &&& mask = pattern ↔
    (fieldOp cw &&& fieldOp mask = fieldOp pattern ∧ fieldCh cw &&& fieldCh mask = fieldCh pattern ∧
      fieldWave cw &&& fieldWave mask = fieldWave pattern ∧ fieldFsel cw &&& fieldFsel mask = fieldFsel pattern ∧
      fieldDurEn cw &&& fieldDurEn mask = fieldDurEn pattern ∧ fieldRsv0 cw &&& fieldRsv0 mask = fieldRsv0 pattern ∧
      fieldVol cw &&& fieldVol mask = fieldVol pattern ∧ fieldRsv1 cw &&& fieldRsv1 mask = fieldRsv1 pattern ∧
      fieldNote cw &&& fieldNote mask = fieldNote pattern ∧
      fieldFvalHigh cw &&& fieldFvalHigh mask = fieldFvalHigh pattern ∧ fieldDur cw &&& fieldDur mask = fieldDur pattern) := by
  conv_lhs => rw [← wordOfFields_fields cw, ← wordOfFields_fields mask, ← wordOfFields_fields pattern, and_wordOfFields,
    wordOfFields_inj]

theorem and_ones_1 (b : BitVec 1) : b &&& 1#1 = b := BitVec.and_allOnes
theorem and_ones_2 (b : BitVec 2) : b &&& 3#2 = b := BitVec.and_allOnes
theorem and_ones_4 (b : BitVec 4) : b &&& 15#4 = b := BitVec.and_allOnes
theorem and_ones_6 (b : BitVec 6) : b &&& 63#6 = b := BitVec.and_allOnes
theorem and_ones_7 (b : BitVec 7) : b &&& 127#7 = b := BitVec.and_allOnes
theorem and_ones_8 (b : BitVec 8) : b &&& 255#8 = b := BitVec.and_allOnes
theorem and_ones_25 (b : BitVec 25) : b &&& 33554431#25 = b := BitVec.and_allOnes
theorem and_ones_32 (b : BitVec 32) : b &&& 4294967295#32 = b := BitVec.and_allOnes

/-- The frequency field is 0 exactly when the note index and the bits above it are. -/
theorem fieldFval_eq_zero_iff (cw : CommandWord) : fieldFval cw = 0 ↔ fieldNote cw = 0 ∧ fieldFvalHigh cw = 0 := by
  have hf := fieldFval_toNat cw
  have hn := fieldNote_toNat cw
  have hh := fieldFvalHigh_toNat cw
  constructor
  · intro h
    rw [h] at hf
    change 0 = _ at hf
    constructor <;> apply BitVec.eq_of_toNat_eq
    · rw [hn]; change _ = 0; omega
    · rw [hh]; change _ = 0; omega
  · rintro ⟨h, h'⟩
    rw [h] at hn
    rw [h'] at hh
    change 0 = _ at hn
    change 0 = _ at hh
    apply BitVec.eq_of_toNat_eq
    rw [hf]; change _ = 0; omega

/-! ### The seven rows -/

theorem mask_playf_iff (cw : CommandWord) : cw &&& rowPlayf.mask = rowPlayf.pattern ↔
    fieldOp cw = 1 ∧ fieldFsel cw = 0 ∧ fieldDurEn cw = 0 ∧ fieldRsv0 cw = 0 ∧ fieldRsv1 cw = 0 ∧ fieldDur cw = 0 := by
  rw [mask_eq_iff_fields]
  simp [rowPlayf, fieldOp, fieldCh, fieldWave, fieldFsel, fieldDurEn, fieldRsv0, fieldVol, fieldRsv1, fieldNote,
    fieldFvalHigh, fieldDur, and_ones_4, and_ones_1, and_ones_6, and_ones_8, and_ones_32]

theorem mask_playfd_iff (cw : CommandWord) : cw &&& rowPlayfd.mask = rowPlayfd.pattern ↔
    fieldOp cw = 1 ∧ fieldFsel cw = 0 ∧ fieldDurEn cw = 1 ∧ fieldRsv0 cw = 0 ∧ fieldRsv1 cw = 0 := by
  rw [mask_eq_iff_fields]
  simp [rowPlayfd, fieldOp, fieldCh, fieldWave, fieldFsel, fieldDurEn, fieldRsv0, fieldVol, fieldRsv1, fieldNote,
    fieldFvalHigh, fieldDur, and_ones_4, and_ones_1, and_ones_6, and_ones_8]

theorem mask_playn_iff (cw : CommandWord) : cw &&& rowPlayn.mask = rowPlayn.pattern ↔
    fieldOp cw = 1 ∧ fieldFsel cw = 1 ∧ fieldDurEn cw = 0 ∧ fieldRsv0 cw = 0 ∧ fieldRsv1 cw = 0 ∧ fieldFvalHigh cw = 0 ∧
      fieldDur cw = 0 := by
  rw [mask_eq_iff_fields]
  simp [rowPlayn, fieldOp, fieldCh, fieldWave, fieldFsel, fieldDurEn, fieldRsv0, fieldVol, fieldRsv1, fieldNote,
    fieldFvalHigh, fieldDur, and_ones_4, and_ones_1, and_ones_6, and_ones_8, and_ones_25, and_ones_32]

theorem mask_playnd_iff (cw : CommandWord) : cw &&& rowPlaynd.mask = rowPlaynd.pattern ↔
    fieldOp cw = 1 ∧ fieldFsel cw = 1 ∧ fieldDurEn cw = 1 ∧ fieldRsv0 cw = 0 ∧ fieldRsv1 cw = 0 ∧ fieldFvalHigh cw = 0 := by
  rw [mask_eq_iff_fields]
  simp [rowPlaynd, fieldOp, fieldCh, fieldWave, fieldFsel, fieldDurEn, fieldRsv0, fieldVol, fieldRsv1, fieldNote,
    fieldFvalHigh, fieldDur, and_ones_4, and_ones_1, and_ones_6, and_ones_8, and_ones_25]

theorem mask_off_iff (cw : CommandWord) : cw &&& rowOff.mask = rowOff.pattern ↔
    fieldOp cw = 2 ∧ fieldWave cw = 0 ∧ fieldFsel cw = 0 ∧ fieldDurEn cw = 0 ∧ fieldRsv0 cw = 0 ∧ fieldVol cw = 0 ∧
      fieldRsv1 cw = 0 ∧ fieldFval cw = 0 ∧ fieldDur cw = 0 := by
  rw [mask_eq_iff_fields, fieldFval_eq_zero_iff]
  simp [rowOff, fieldOp, fieldCh, fieldWave, fieldFsel, fieldDurEn, fieldRsv0, fieldVol, fieldRsv1, fieldNote,
    fieldFvalHigh, fieldDur, and_ones_4, and_ones_2, and_ones_1, and_ones_6, and_ones_7, and_ones_8, and_ones_25,
    and_ones_32, and_assoc]

theorem mask_next_iff (cw : CommandWord) : cw &&& rowNext.mask = rowNext.pattern ↔ cw = 3 := by
  rw [show rowNext.mask = BitVec.allOnes 96 from rfl, BitVec.and_allOnes]
  exact Iff.rfl

theorem mask_rdsr_iff (cw : CommandWord) : cw &&& rowRdsr.mask = rowRdsr.pattern ↔ cw = 4 := by
  rw [show rowRdsr.mask = BitVec.allOnes 96 from rfl, BitVec.and_allOnes]
  exact Iff.rfl

/-- Selecting a row is meeting its mask and, for a note row, its bound. -/
theorem selects_iff (r : OpcodeRow) (cw : CommandWord) : r.selects cw = true ↔
    cw &&& r.mask = r.pattern ∧ (r.boundedNote = true → noteInTable (fieldNote cw) = true) := by
  cases h : r.boundedNote <;> simp [OpcodeRow.selects, h]

end Sys2Proof
end

