-- ==== Sys2Proof/Laws/PerInstr.lean ====
section
/-! SUPPORT. Statements about every command, one lemma per constructor. `EncodeSelectsRow`: the word of a well-formed command selects its
own row of the opcode map (30_encoding.md R55). -/

/-- The word of a well-formed command selects the command's row. -/
def Sys2Proof.Laws.EncodeSelectsRow.Statement (i : Sys2Proof.Instr) : Prop :=
  i.wellFormed = true → i.row.selects (Sys2Proof.encode i) = true

namespace Sys2Proof.Laws.EncodeSelectsRow

theorem playf (ch : Channel) (chz : Word) (vol : Byte) (wave : Waveform) : Statement (.playf ch chz vol wave) := by
  intro _
  rw [selects_iff]
  refine ⟨(mask_playf_iff _).2 ?_, fun h => by cases h⟩
  simp [encode]

theorem playfd (ch : Channel) (chz dur : Word) (vol : Byte) (wave : Waveform) : Statement (.playfd ch chz dur vol wave) := by
  intro _
  rw [selects_iff]
  refine ⟨(mask_playfd_iff _).2 ?_, fun h => by cases h⟩
  simp [encode]

theorem playn (ch : Channel) (note : BitVec 7) (vol : Byte) (wave : Waveform) : Statement (.playn ch note vol wave) := by
  intro hw
  rw [selects_iff]
  exact ⟨(mask_playn_iff _).2 (by simp [encode]), fun _ => by simpa [encode] using (show noteInTable note = true from hw)⟩

theorem playnd (ch : Channel) (note : BitVec 7) (dur : Word) (vol : Byte) (wave : Waveform) :
    Statement (.playnd ch note dur vol wave) := by
  intro hw
  rw [selects_iff]
  exact ⟨(mask_playnd_iff _).2 (by simp [encode]), fun _ => by simpa [encode] using (show noteInTable note = true from hw)⟩

theorem off (ch : Channel) : Statement (.off ch) := by
  intro _
  rw [selects_iff]
  refine ⟨(mask_off_iff _).2 ?_, fun h => by cases h⟩
  simp [encode]

theorem next : Statement .next := by
  intro _
  decide

theorem rdsr : Statement .rdsr := by
  intro _
  decide

end Sys2Proof.Laws.EncodeSelectsRow
end

