-- ==== Sys2Proof/Laws/Sound.lean ====
section
/-! SUPPORT. The bounds and the addresses the sound path rests on. -/

namespace Sys2Proof.Machine

/-- A wavetable entry is a signed byte. -/
theorem entry_bounds (rom : Rom) (w : Waveform) (i : Byte) :
    -128 ≤ (romRead rom w i).toInt ∧ (romRead rom w i).toInt ≤ 127 := by
  have h := BitVec.two_mul_toInt_lt (x := romRead rom w i)
  have h' := BitVec.le_two_mul_toInt (x := romRead rom w i)
  norm_num at h h'
  omega

/-- The address of a wavetable read. -/
theorem rom_address_toNat (w : Waveform) (i : Byte) : (w.tag ++ i).toNat = 256 * w.tag.toNat + i.toNat := by
  rw [toNat_append_add]
  omega

/-- The table index is the phase divided by 256. -/
theorem tableIndex_toNat (p : Half) : (tableIndex p).toNat = p.toNat / 256 := by
  have h := p.isLt
  simp [tableIndex, BitVec.extractLsb'_toNat, Nat.shiftRight_eq_div_pow]
  omega

/-- The shift by 10 is the floor division by 1024. -/
theorem rescale_eq_div (acc : Int) : rescale acc = acc / 1024 := by
  rw [rescale, Int.shiftRight_eq_div_pow]
  norm_num

/-- The three forms of the timer step. -/
theorem timerStep_idle {o : Oscillator} (h : o.durActive = false) : timerStep o = o := by
  simp [timerStep, h]

theorem timerStep_expire {o : Oscillator} (h : o.durActive = true) (h1 : o.durCount = 1) :
    timerStep o = { o with durCount := 0, durActive := false, vol := 0 } := by
  simp [timerStep, h, h1]

theorem timerStep_count {o : Oscillator} (h : o.durActive = true) (h1 : o.durCount ≠ 1) :
    timerStep o = { o with durCount := o.durCount - 1 } := by
  have : o.durCount - 1 ≠ 0 := fun h0 => h1 (by bv_omega)
  simp only [timerStep, h, if_true]
  rw [if_neg this]

end Sys2Proof.Machine
end

