-- ==== Sys2Proof/Tests/Slice0.lean ====
section
/-! SUPPORT. Tests, whose expected results are the vectors of 95_test_vectors.md and the worked examples of the rules, then one witness
for each statement that has hypotheses: concrete values that meet all of them. -/

namespace Sys2Proof.Tests

open Sys2Proof.Machine Sys2Proof.Safety

/-! ### WellFormed: the one check, a note index of the table (R59) -/

theorem test_wellFormed_playn : (Instr.playn .ch0 108 255 .sine).wellFormed = true ∧
    (Instr.playn .ch0 109 255 .sine).wellFormed = false := by decide
theorem test_wellFormed_playnd : (Instr.playnd .ch3 0 5 255 .noise).wellFormed = true ∧
    (Instr.playnd .ch3 127 5 255 .noise).wellFormed = false := by decide

/-! ### Decoding: V-ENC and V-PLAY, each word written out as `W2_W1_W0` -/

theorem test_decode_playf : decode 0x00000000_00006633_00FF0041#96 = .ok (.playf .ch0 26163 255 .sawtooth) := by decide
theorem test_decode_playfd : decode 0xFFFFFFFF_FFFFFFFF_00FF02F1#96 = .ok (.playfd .ch3 4294967295 4294967295 255 .noise) := by
  decide
theorem test_decode_playfd_durationZero : decode 0x00000000_000186A0_00FF0241#96 = .ok (.playfd .ch0 100000 0 255 .sawtooth) := by
  decide
theorem test_decode_playn : decode 0x00000000_0000006C_00000101#96 = .ok (.playn .ch0 108 0 .sine) := by decide
theorem test_decode_playnd : decode 0x00000002_00000031_008003E1#96 = .ok (.playnd .ch2 49 2 128 .noise) := by decide
theorem test_decode_off : decode 0x00000000_00000000_00000032#96 = .ok (.off .ch3) := by decide
theorem test_decode_next : decode 0x00000000_00000000_00000003#96 = .ok .next := by decide
theorem test_decode_rdsr : decode 0x00000000_00000000_00000004#96 = .ok .rdsr := by decide
theorem test_decode_illegalOpcode : decode 0x00000000_00000000_00000000#96 = .error .opcode ∧
    decode 0x00000000_00000000_00000005#96 = .error .opcode ∧ decode 0x00000000_00000000_0000000F#96 = .error .opcode := by decide
theorem test_decode_illegalReserved : decode 0x00000000_00006633_00FF0441#96 = .error .reservedBits ∧
    decode 0x00000000_00006633_01FF0041#96 = .error .reservedBits := by decide
theorem test_decode_illegalDuration : decode 0x00000001_00006633_00FF0041#96 = .error .durationNotEnabled := by decide
theorem test_decode_illegalNote : decode 0x00000000_0000006D_00000101#96 = .error .noteIndex ∧
    decode 0x00000000_0000007F_00000101#96 = .error .noteIndex ∧
    decode 0x00000000_00000080_00000101#96 = .error .noteHighBits := by decide
theorem test_decode_illegalOff : decode 0x00000000_00000000_00000042#96 = .error .offUnusedField ∧
    decode 0x00000000_00000000_00010002#96 = .error .offUnusedField ∧
    decode 0x00000000_00000001_00000002#96 = .error .offUnusedField := by decide
theorem test_decode_illegalBare : decode 0x00000000_00000000_00000013#96 = .error .otherBits ∧
    decode 0x00000001_00000000_00000003#96 = .error .otherBits ∧
    decode 0x00000000_00000000_00000104#96 = .error .otherBits := by decide

/-- The words of V-PLAY and of the programs. -/
theorem test_encode : encode (.playfd .ch1 100000 3 255 .square) = 0x00000003_000186A0_00FF0291#96 ∧
    encode (.playn .ch0 58 255 .sine) = 0x00000000_0000003A_00FF0101#96 ∧
    encode (.playnd .ch0 0 5 255 .sine) = 0x00000005_00000000_00FF0301#96 ∧
    encode (.off .ch2) = 0x00000000_00000000_00000022#96 := by decide

/-- The table's numbering: `W1` from bit 32 on, `W2` from bit 64 on; bits above `nbits` are 0. -/
theorem test_decodeTableWord : decodeTableWord 96 (0x00FF0291 + 100000 * 2 ^ 32 + 3 * 2 ^ 64) =
    some (.playfd .ch1 100000 3 255 .square) ∧ decodeTableWord 96 0 = none := by decide

/-! ### Functions: V-NOTE, V-STEP, V-DUR, V-MIX, V-PCM -/

theorem test_lutRead : lutRead 0 = some 0 ∧ lutRead 1 = some 1635 ∧ lutRead 10 = some 2750 ∧ lutRead 49 = some 26163 ∧
    lutRead 58 = some 44000 ∧ lutRead 70 = some 88000 ∧ lutRead 108 = some 790213 ∧ lutRead 109 = none := by decide
theorem test_phaseStep_exact : phaseStep 8000 32 = 2 ∧ phaseStep 8000 799999 = 0xFFFD ∧ phaseStep 16000 790213 = 0x7E6E ∧
    phaseStep 44100 2205000 = 0x8000 ∧ phaseStep 4294967295 16777215 = 0 := by decide
theorem test_phaseStep_wrapped : phaseStep 8000 16777215 = 0xF8B3 ∧ phaseStep 8000 16777217 = 0 ∧
    phaseStep 1 25599 = 0xFD70 ∧ phaseStep 1 65535 = 0x5999 ∧ phaseStep 1 65536 = 0 := by decide
theorem test_durFromMs : durFromMs 44100 500 = 22050 ∧ durFromMs 1 999 = 0 ∧ durFromMs 48000 89478485 = 4294967280 ∧
    durFromMs 48000 89478486 = 4294967295 ∧ durFromMs 4294967295 4294967295 = 4294967295 := by decide
theorem test_mix : rescale (-1023) = -1 ∧ rescale 1024 = 1 ∧ rescale (-32640) = -32 ∧ rescale (-130560) = -128 ∧
    clamp8 (rescale 131072) = 127 ∧ clamp8 (rescale (-131073)) = -128 ∧ clamp8 (rescale (-2147483648)) = -128 := by decide
theorem test_toPcm : toPcm 0x80 = 0 ∧ toPcm 0xE2 = 98 ∧ toPcm 0xFF = 127 ∧ toPcm 0 = 128 ∧ toPcm 0x7E = 254 := by decide

/-! ### The reference ROM image of 95_test_vectors.md section 1 -/

/-- Entries 0 to 63 of the sine table. -/
def sineRise : List Int :=
  [0, 3, 6, 9, 12, 16, 19, 22, 25, 28, 31, 34, 37, 40, 43, 46, 49, 51, 54, 57, 60, 63, 65, 68, 71, 73, 76, 78, 81, 83, 85, 88]
    ++ [90, 92, 94, 96, 98, 100, 102, 104, 106, 107, 109, 111, 112, 113, 115, 116, 117, 118, 120, 121, 122, 122, 123, 124, 125,
      125, 126, 126, 126, 127, 127, 127]

/-- Entries 64 to 127 of the sine table. -/
def sineFall : List Int :=
  [127, 127, 127, 127, 126, 126, 126, 125, 125, 124, 123, 122, 122, 121, 120, 118, 117, 116, 115, 113, 112, 111, 109, 107, 106,
      104, 102, 100, 98, 96, 94, 92]
    ++ [90, 88, 85, 83, 81, 78, 76, 73, 71, 68, 65, 63, 60, 57, 54, 51, 49, 46, 43, 40, 37, 34, 31, 28, 25, 22, 19, 16, 12, 9, 6, 3]

/-- The sine table; its second half is the first negated. -/
def sineEntry (i : Nat) : Int :=
  if i < 128 then (sineRise ++ sineFall).getD i 0 else -((sineRise ++ sineFall).getD (i - 128) 0)

/-- `REF_ROM`. -/
def refRom : Rom := fun a =>
  let i := a.toNat % 256
  let w := a.toNat / 256
  BitVec.ofInt 8 (if w = 0 then sineEntry i else if w = 1 then i - 128 else if w = 2 then (if i < 128 then 127 else -128)
    else ((167 * i + 13) % 256 : Nat) - 128)

/-! ### One tick of one oscillator: V-OSC -/

theorem test_oscStep_wraps : oscStep refRom ⟨0xF000, 0x2000, 255, false, 0, .sawtooth⟩ =
    (⟨0x1000, 0x2000, 255, false, 0, .sawtooth⟩, -28560) := by decide
theorem test_oscStep_carries : oscStep refRom ⟨0x00FF, 0x0001, 200, false, 0, .sine⟩ =
    (⟨0x0100, 0x0001, 200, false, 0, .sine⟩, 600) := by decide
theorem test_oscStep_expires : oscStep refRom ⟨0x4000, 0x2000, 255, true, 1, .square⟩ =
    (⟨0x6000, 0x2000, 0, false, 0, .square⟩, 32385) := by decide
theorem test_oscStep_countsDown : oscStep refRom ⟨0x8000, 0xFFFF, 1, true, 4294967295, .noise⟩ =
    (⟨0x7FFF, 0xFFFF, 1, true, 4294967294, .noise⟩, 102) := by decide
theorem test_oscStep_rests : oscStep refRom ⟨0, 0, 255, false, 0, .sawtooth⟩ = (⟨0, 0, 255, false, 0, .sawtooth⟩, -32640) := by decide

/-! ### The commands: V-PLAY, V-OFF, the programs -/

/-- V-PLAY's prior record, every field non-zero. -/
def prior : Oscillator := ⟨0x9ABC, 0x0123, 77, true, 9, .noise⟩

/-- Every channel in the prior record, at a sample rate, nothing presented and nothing answered. -/
def bench (rate : Word) : State := ⟨⟨prior, prior, prior, prior⟩, rate, false, [], []⟩

/-- The outcome is this next state. -/
def nextIs (r : Host.Outcome State Fault Refusal) (t : State) : Bool :=
  match r with
  | .next u => decide (u = t)
  | .fault _ => false
  | .refused _ => false

/-- The outcome is this refusal. -/
def refusedIs (r : Host.Outcome State Fault Refusal) (f : Refusal) : Bool :=
  match r with
  | .next _ => false
  | .fault _ => false
  | .refused g => decide (g = f)

/-- A machine after reset at 8000 with channel 0 replaced. -/
def silentBut (o : Oscillator) : State := writeOsc (State.afterReset 8000 [] []) .ch0 o

theorem test_playf : nextIs (exec (.playf .ch0 26163 255 .sawtooth) (bench 8000))
    ⟨⟨⟨0, 0x085E, 255, false, 0, .sawtooth⟩, prior, prior, prior⟩, 8000, false, [], [⟨.ack, 0⟩]⟩ = true := by decide
theorem test_playf_atTheRate : nextIs (exec (.playf .ch3 800000 255 .sawtooth) (bench 8000))
    ⟨⟨prior, prior, prior, ⟨0, 0, 255, false, 0, .sawtooth⟩⟩, 8000, false, [], [⟨.ack, 0⟩]⟩ = true := by decide
theorem test_playfd : nextIs (exec (.playfd .ch0 26163 4294967295 255 .sawtooth) (bench 8000))
    ⟨⟨⟨0, 0x085E, 255, true, 4294967295, .sawtooth⟩, prior, prior, prior⟩, 8000, false, [], [⟨.ack, 0⟩]⟩ = true := by decide
theorem test_playfd_durationZero : nextIs (exec (.playfd .ch1 26163 0 255 .sawtooth) (bench 8000))
    ⟨⟨prior, ⟨0, 0x085E, 0, false, 0, .sawtooth⟩, prior, prior⟩, 8000, false, [], [⟨.ack, 0⟩]⟩ = true := by decide
theorem test_playn : nextIs (exec (.playn .ch0 108 255 .square) (bench 8000))
    ⟨⟨⟨0, 0xFCDC, 255, false, 0, .square⟩, prior, prior, prior⟩, 8000, false, [], [⟨.ack, 0⟩]⟩ = true := by decide
theorem test_playn_outsideTheExactDomain : nextIs (exec (.playn .ch0 108 255 .square) (bench 4000))
    ⟨⟨⟨0, 0xF9BA, 255, false, 0, .square⟩, prior, prior, prior⟩, 4000, false, [], [⟨.ack, 0⟩]⟩ = true := by decide
theorem test_playnd : nextIs (exec (.playnd .ch2 49 2 128 .noise) (bench 8000))
    ⟨⟨prior, prior, ⟨0, 0x085E, 128, true, 2, .noise⟩, prior⟩, 8000, false, [], [⟨.ack, 0⟩]⟩ = true := by decide
theorem test_playnd_rest : nextIs (exec (.playnd .ch0 0 5 255 .sine) (bench 8000))
    ⟨⟨⟨0, 0, 255, true, 5, .sine⟩, prior, prior, prior⟩, 8000, false, [], [⟨.ack, 0⟩]⟩ = true := by decide
theorem test_off : nextIs (exec (.off .ch2) (bench 8000))
    ⟨⟨prior, prior, ⟨0, 0x0123, 0, false, 0, .noise⟩, prior⟩, 8000, false, [], [⟨.ack, 0⟩]⟩ = true := by decide
theorem test_rdsr : nextIs (exec .rdsr (bench 8000)) { bench 8000 with responses := [⟨.rate, 0x00001F40⟩] } = true := by decide
/-- P1, tick 0. -/
theorem test_next_oneVoice : tickWith refRom (silentBut ⟨0, 0x085E, 255, false, 0, .sawtooth⟩) =
    { silentBut ⟨0x085E, 0x085E, 255, false, 0, .sawtooth⟩ with responses := [⟨.sample, 0x000062E2⟩] } := by decide
/-- P4, tick 0: a sine, a rest on the sawtooth table, noise; sample -29, PCM 99. -/
theorem test_next_mixedVoices : (tickWith refRom ⟨⟨⟨0, 0x0E14, 255, false, 0, .sine⟩, ⟨0, 0, 255, false, 0, .sawtooth⟩,
    ⟨0, 0x085E, 128, true, 2, .noise⟩, .silent⟩, 8000, false, [], []⟩).responses = [⟨.sample, 0x000063E3⟩] := by decide
/-- P3, tick 3: the maximal negative sum; sample -128, PCM 0. -/
theorem test_next_bottom : nextSample refRom ⟨⟨0x6000, 0x2000, 255, false, 0, .square⟩, ⟨0x6000, 0x2000, 255, false, 0, .square⟩,
    ⟨0x6000, 0x2000, 255, false, 0, .square⟩, ⟨0x6000, 0x2000, 255, false, 0, .square⟩⟩ = 0x80 := by decide

/-! ### The step -/

/-- P5, the all-zero word: `FAULT` and one `ERR`, nothing else. -/
theorem test_step_illegalWord : nextIs (step (presentWord 0 (bench 8000)))
    { bench 8000 with fault := true, responses := [⟨.err, 0⟩] } = true := by decide
theorem test_step_word : nextIs (step ((bench 8000).withFetchWord 96 0x22))
    ⟨⟨prior, prior, ⟨0, 0x0123, 0, false, 0, .noise⟩, prior⟩, 8000, false, [], [⟨.ack, 0⟩]⟩ = true := by decide
/-- V-RESET. -/
theorem test_step_reset : nextIs (step { bench 1 with fault := true, inputs := [.reset 8000] })
    ⟨⟨⟨0, 0, 0, false, 0, .sine⟩, ⟨0, 0, 0, false, 0, .sine⟩, ⟨0, 0, 0, false, 0, .sine⟩, ⟨0, 0, 0, false, 0, .sine⟩⟩,
      8000, false, [], []⟩ = true := by decide
/-- R131. -/
theorem test_step_resetRateZero : refusedIs (step { bench 1 with inputs := [.reset 0] }) .zeroSampleRate = true := by decide

/-! ### Command text: the examples of R61 and V-PLAY -/

theorem test_assemble_playf : assembleLine 8000 "PLAYF   0, 26163, 255, SAW ; a remark".toList =
    some [0x00000000_00006633_00FF0041#96] := by decide
theorem test_assemble_playnd : assembleLine 8000 "PLAYND 2, C4, 2, 128, NOISE".toList =
    some [0x00000002_00000031_008003E1#96] := by decide
theorem test_assemble_off : assembleLine 8000 "OFF CH3".toList = some [0x32] ∧
    assembleLine 8000 "NEXT 2".toList = some [3, 3] ∧ assembleLine 8000 "RDSR".toList = some [4] := by decide
theorem test_assemble_pseudo : assembleLine 8000 "PLAYHZ 1, 1000, 3, 0xFF, SQUARE".toList =
      some [0x00000003_000186A0_00FF0291#96] ∧
    assembleLine 8000 "PLAYMS 0, REST, 1, 255, SINE".toList = some [0x00000008_00000000_00FF0301#96] ∧
    assembleLine 8000 "PLAYHZ 0, 42949673, NONE, 255, SINE".toList = none := by decide
theorem test_readNumber : readNumber "0x1aF".toList = some 431 ∧ readNumber "109".toList = some 109 ∧
    readNumber "12A".toList = none ∧ readNumber "0xG".toList = none := by decide
theorem test_noteName : noteName 1 = some "C0".toList ∧ noteName 58 = some "A4".toList ∧ noteName 108 = some "B8".toList ∧
    noteName 50 = some "CS4".toList := by decide

/-! ### Witnesses: for each statement with hypotheses, values that meet all of them, at the ends of their ranges -/

/-- A word of each kind: PLAYF, PLAYFD, PLAYN of the highest note, PLAYND, OFF, NEXT, RDSR, illegal. -/
def wPlayf : CommandWord := 0x00000000_FFFFFFFF_00FF00F1
def wPlayfd : CommandWord := 0x00000003_000186A0_00FF0291
def wPlayn : CommandWord := 0x00000000_0000006C_00000101
def wPlaynd : CommandWord := 0x00000002_00000031_008003E1
def wOff : CommandWord := 0x32
def wNext : CommandWord := 3
def wRdsr : CommandWord := 4
def wIllegal : CommandWord := 0

/-- A machine with these events presented. -/
def presenting (es : List HostInput) : State := { bench 8000 with inputs := es }

/-- A playing channel 0 beside three silent ones. -/
def onePlaying : State := silentBut ⟨0x1234, 0x2000, 255, false, 0, .square⟩

theorem witness_DecodeOfEncodeIsIdentity : (Instr.playn .ch3 108 255 .noise).wellFormed = true ∧
    (Instr.playnd .ch3 108 4294967295 255 .noise).wellFormed = true ∧
    (Instr.playfd .ch3 4294967295 4294967295 255 .noise).wellFormed = true := by decide

theorem witness_LegalWordsAreCanonical : decode wPlayf = .ok (.playf .ch3 4294967295 255 .noise) ∧ fieldDurEn wPlayf = 0 ∧
    decode wPlayn = .ok (.playn .ch0 108 0 .sine) ∧ fieldFsel wPlayn = 1 ∧
    decode wOff = .ok (.off .ch3) ∧ fieldOp wOff = 2 ∧ decode wNext = .ok .next ∧ fieldOp wNext = 3 ∧
    decode wRdsr = .ok .rdsr ∧ fieldOp wRdsr = 4 := by decide

theorem witness_OperandsAreTheirFields : decode wPlayf = .ok (.playf .ch3 4294967295 255 .noise) ∧
    decode wPlayfd = .ok (.playfd .ch1 100000 3 255 .square) ∧ decode wPlayn = .ok (.playn .ch0 108 0 .sine) ∧
    decode wPlaynd = .ok (.playnd .ch2 49 2 128 .noise) ∧ decode wOff = .ok (.off .ch3) ∧ decode wNext = .ok .next ∧
    decode wRdsr = .ok .rdsr := by decide

theorem witness_IllegalWordsAreThoseOfR57 : decode 15 = .error .opcode ∧ decode (0x401 : CommandWord) = .error .reservedBits ∧
    decode (0x00000001_00000000_00000001 : CommandWord) = .error .durationNotEnabled ∧
    decode (0x00000000_80000000_00000101 : CommandWord) = .error .noteHighBits ∧
    decode (0x00000000_0000006D_00000101 : CommandWord) = .error .noteIndex ∧
    decode (0x80000000_00000000_00000002 : CommandWord) = .error .offUnusedField ∧
    decode (0x14 : CommandWord) = .error .otherBits := by decide

theorem witness_OpcodeMapSelectsTheCommand : rowPlayn ∈ opcodeRows ∧ rowPlayn.selects wPlayn = true ∧
    rowPlayn.selects (wPlayn + 2 ^ 32) = false ∧ rowPlayfd ∈ opcodeRows ∧ rowPlayfd.selects wPlayfd = true ∧
    rowPlayf ∈ opcodeRows ∧ rowPlayf.selects wPlayf = true ∧ rowPlaynd ∈ opcodeRows ∧ rowPlaynd.selects wPlaynd = true ∧
    rowOff ∈ opcodeRows ∧ rowOff.selects wOff = true ∧ rowNext ∈ opcodeRows ∧ rowNext.selects wNext = true ∧
    rowRdsr ∈ opcodeRows ∧ rowRdsr.selects wRdsr = true := by decide

theorem witness_StepRunsTheDecodedCommand : (presenting [.command wPlayf]).inputs = .command wPlayf :: [] ∧
    decode wPlayf = .ok (.playf .ch3 4294967295 255 .noise) ∧ decodeTableWord 96 3 = some .next ∧
    decodeTableWord 96 (2 ^ 96 - 1 - 0xFF00FF0F + 0x201) = some (.playfd .ch3 4294967295 4294967295 255 .noise) := by decide

theorem witness_IllegalCommandIsReportedAndHarmless :
    (presenting [.command wIllegal, .command wNext]).inputs = .command wIllegal :: [.command wNext] ∧
    decode wIllegal = .error .opcode ∧ [HostInput.command wNext] = .command wNext :: [] ∧ decode wNext = .ok .next := by decide
theorem witness_IllegalCommandIsReportedAndHarmless_sticky : ∃ t, ({ presenting [.command wRdsr] with fault := true } : State).fault = true ∧
    step { presenting [.command wRdsr] with fault := true } = .next t := ⟨_, rfl, rfl⟩
theorem witness_IllegalCommandIsReportedAndHarmless_reset : ∃ t, ({ presenting [.reset 1] with fault := true } : State).fault = true ∧
    step { presenting [.reset 1] with fault := true } = .next t ∧ t.fault = false := ⟨_, rfl, rfl, rfl⟩

theorem witness_FaultFlagIsNeverRead : ∃ t, step (presenting [.command wNext]) = .next t := ⟨_, rfl⟩

theorem witness_OnlyAZeroRateResetStops : (presenting [.reset 0]).inputs = .reset 0 :: [] ∧ (presenting []).inputs = [] := by decide

theorem witness_ResetEventSetsTheWholeState : (presenting [.reset 1]).inputs = .reset 1 :: [] ∧ (1 : Word) ≠ 0 ∧
    (presenting [.reset 4294967295]).inputs = .reset 4294967295 :: [] ∧ (4294967295 : Word) ≠ 0 := by decide
theorem witness_ResetEventSetsTheWholeState_rate : ∃ t, step (presenting [.reset 1]) = .next t ∧ t.sr ≠ (presenting [.reset 1]).sr :=
  ⟨_, rfl, by decide⟩
theorem witness_ResetEventSetsTheWholeState_fault : ∃ t, step { presenting [.reset 8000] with fault := true } = .next t ∧
    t.fault = false := ⟨_, rfl, rfl⟩

theorem witness_NoteTableIsEqualTempered : 1 ≤ (1 : BitVec 7).toNat ∧ (1 : BitVec 7).toNat ≤ 108 ∧ 1 ≤ (108 : BitVec 7).toNat ∧
    (108 : BitVec 7).toNat ≤ 108 ∧ lutRead 107 = some 745862 ∧ lutRead 108 = some 790213 ∧
    (107 : BitVec 7).toNat < (108 : BitVec 7).toNat ∧ lutRead 0 = some 0 ∧ lutRead 1 = some 1635 := by decide

theorem witness_NoteReadsExistUpTo108 : decode wPlayn = .ok (.playn .ch0 108 0 .sine) ∧
    decode (0x00000002_0000006C_008003E1 : CommandWord) = .ok (.playnd .ch2 108 2 128 .noise) := by decide

theorem witness_PhaseStepIsR74 : (1 : Word) ≠ 0 ∧ (4294967295 : Word) ≠ 0 := by decide

theorem witness_PhaseStepExactDomain : (8000 : Word) ≠ 0 ∧ (799999 : Word).toNat < min (2 ^ 24) (100 * (8000 : Word).toNat) ∧
    (16777215 : Word).toNat < min (2 ^ 24) (100 * (4294967295 : Word).toNat) ∧
    ¬ (800000 : Word).toNat < min (2 ^ 24) (100 * (8000 : Word).toNat) ∧ (1 : Word) ≠ 0 ∧
    2 ^ 24 ≤ (65536 : Word).toNat * 256 % 2 ^ 32 / (1 : Word).toNat ∧
    2 ^ 24 ≤ (16777215 : Word).toNat * 256 % 2 ^ 32 / (255 : Word).toNat := by decide

theorem witness_PhaseStepIsMonotone : (1 : Word) ≠ 0 ∧ (31 : Word).toNat * 256 < (8000 : Word).toNat ∧
    (799998 : Word).toNat ≤ (799999 : Word).toNat ∧
    (799999 : Word).toNat < min (2 ^ 24) (100 * (8000 : Word).toNat) := by decide

theorem witness_DurationFromMilliseconds : (999 : Word).toNat * (1 : Word).toNat < 1000 ∧
    1000 * 2 ^ 32 ≤ (89478486 : Word).toNat * (48000 : Word).toNat ∧
    ¬ 1000 * 2 ^ 32 ≤ (89478485 : Word).toNat * (48000 : Word).toNat := by decide

theorem witness_PlaynStartsANote : (0 : BitVec 7).toNat ≤ 108 ∧ (108 : BitVec 7).toNat ≤ 108 ∧ 108 < (109 : BitVec 7).toNat ∧
    108 < (127 : BitVec 7).toNat := by decide
theorem witness_PlayndStartsATimedNote : (0 : BitVec 7).toNat ≤ 108 ∧ (108 : BitVec 7).toNat ≤ 108 ∧ 108 < (109 : BitVec 7).toNat ∧
    108 < (127 : BitVec 7).toNat := by decide
/-- The forms of the duration in `Played`, and a legal rate. -/
theorem witness_PlayfdStartsATimedFrequency : (bench 8000).sr ≠ 0 ∧ (some 1 : Option Word) = some 1 ∧ (1 : Word) ≠ 0 ∧
    (some 4294967295 : Option Word) = some 4294967295 ∧ (4294967295 : Word) ≠ 0 ∧ (some 0 : Option Word) = some 0 := by decide

theorem witness_OscillatorStepIsR85 : (⟨0x4000, 0x2000, 255, true, 1, .square⟩ : Oscillator).durActive = true ∧
    (⟨0x4000, 0x2000, 255, true, 1, .square⟩ : Oscillator).durCount = 1 ∧ prior.durActive = true ∧ prior.durCount ≠ 1 ∧
    Oscillator.silent.durActive = false ∧ refRom 0x260 = 127 := by decide

theorem witness_ContributionFits16Bits : Oscillator.silent.vol = 0 := by decide

theorem witness_ChannelOrderIsUnobservable : [Channel.ch3, .ch1, .ch0, .ch2].Perm [.ch0, .ch1, .ch2, .ch3] := by decide

theorem witness_RestHoldsAConstantLevel : (bench 1).sr ≠ 0 ∧ (Pitch.freq 0 = .freq 0 ∨ Pitch.freq 0 = .note 0) ∧
    (Pitch.note 0 = .freq 0 ∨ Pitch.note 0 = .note 0) := by decide

/-- A tick, an OFF of another channel, an illegal word, a tick. -/
def twoTicks : List HostInput := [.command wNext, .command wOff, .command wIllegal, .command wNext]
/-- Two ticks fall short of a duration of 3, use up a duration of 2, and no tick uses up a duration of 0. -/
theorem witness_NoteSoundsForItsDuration : (selectPlay .ch1 (.note 108) (some 3) 255 .sine).wellFormed = true ∧
    (∀ e ∈ twoTicks, isReset e = false ∧ addresses .ch1 e = false) ∧
    twoTicks.countP isTick < (3 : Word).toNat ∧ (2 : Word).toNat ≤ twoTicks.countP isTick ∧
    (∀ e ∈ ([] : List HostInput), isReset e = false ∧ addresses .ch1 e = false) ∧
    (0 : Word).toNat ≤ ([] : List HostInput).countP isTick ∧
    (selectPlay .ch1 (.freq 4294967295) none 255 .sine).wellFormed = true := by decide

theorem witness_PeriodReadsEvenlySpacedPoints : (⟨0, 0x2000, 255, false, 0, .sine⟩ : Oscillator).phase = 0 ∧
    (⟨0, 0x2000, 255, false, 0, .sine⟩ : Oscillator).durActive = false ∧ (0x2000 : Half).toNat * 8 = 65536 ∧
    (1 : Half).toNat * 65536 = 65536 ∧ (0x8000 : Half).toNat * 2 = 65536 := by decide

theorem witness_SilenceLastsUntilPlay : (readOsc onePlaying .ch1).vol = 0 ∧
    (∀ e ∈ HostInput.command wPlayf :: .reset 1 :: twoTicks, carries (playsOn .ch1) e = false) := by decide
theorem witness_SilenceLastsUntilPlay_run : ∃ t, runAll (HostInput.command wPlayf :: .reset 1 :: twoTicks) onePlaying = .next t :=
  ⟨_, rfl⟩

theorem witness_NextProducesOneSample : ∀ c, (readOsc (State.afterReset 8000 [] []) c).vol = 0 := fun c => by cases c <;> decide

theorem witness_NextProducesOneSample_example : (refRom 0x108).toInt = -120 := by decide

theorem witness_MixSumNeverOverflows : [Channel.ch2, .ch0, .ch3, .ch1].Perm [.ch0, .ch1, .ch2, .ch3] ∧ 18 ≤ 18 ∧ 18 ≤ 32 := by
  decide

theorem witness_RescaleRoundsDown : (-1 : Int) < 0 ∧ ¬ (1024 : Int) ∣ -1 ∧ (-1025 : Int) < 0 ∧ ¬ (1024 : Int) ∣ -1025 ∧
    (-1024 : Int) ≤ -1024 ∧ (-1024 : Int) < 0 ∧ (-1024 : Int) ≤ -1 := by decide

theorem witness_ClipperSaturates : (-129 : Int) < -128 ∧ (127 : Int) < 128 ∧ (-128 : Int) ≤ -128 ∧ (-128 : Int) ≤ 127 ∧
    (127 : Int) ≤ 127 := by decide

theorem witness_OneChannelSpansAQuarter : ∀ d, d ≠ .ch0 → (onePlaying.osc.read d).vol = 0 := fun d => by cases d <;> decide

theorem witness_SilentUntilTheFirstPlay : ∀ e ∈ HostInput.command wRdsr :: twoTicks,
    isReset e = false ∧ ∀ c, carries (playsOn c) e = false := by
  have h : ∀ c ∈ [Channel.ch0, .ch1, .ch2, .ch3], ∀ e ∈ HostInput.command wRdsr :: twoTicks,
      isReset e = false ∧ carries (playsOn c) e = false := by decide
  exact fun e he => ⟨(h .ch0 (by decide) e he).1, fun c => (h c (by cases c <;> decide) e he).2⟩

theorem witness_StepKeepsTimersAndRateLegal : Inv (presenting [.command wNext]) ∧
    ∃ t, step (presenting [.command wNext]) = .next t := ⟨by decide, _, rfl⟩
theorem witness_StepKeepsTimersAndRateLegal_expiry : Inv { silentBut ⟨0, 0, 255, true, 1, .sine⟩ with inputs := [.command wNext] } ∧
    ∃ t, step { silentBut ⟨0, 0, 255, true, 1, .sine⟩ with inputs := [.command wNext] } = .next t := ⟨by decide, _, rfl⟩

theorem witness_EachCommandAnswersOnce : (presenting [.command wNext]).inputs = .command wNext :: [] ∧ decode wNext = .ok .next ∧
    (presenting [.command wRdsr]).inputs = .command wRdsr :: [] ∧ decode wRdsr = .ok .rdsr ∧
    (presenting [.command wOff]).inputs = .command wOff :: [] ∧ decode wOff = .ok (.off .ch3) ∧
    (presenting [.command wIllegal]).inputs = .command wIllegal :: [] ∧ decode wIllegal = .error .opcode := by decide

theorem witness_WhatNoCommandDoes : ∃ t, exec (.playf .ch0 26163 255 .sawtooth) { bench 8000 with fault := true } = .next t ∧
    Instr.playf .ch0 26163 255 .sawtooth ≠ .next ∧ (readOsc t .ch0).step ≠ (readOsc (bench 8000) .ch0).step ∧
    (readOsc t .ch0).wave ≠ (readOsc (bench 8000) .ch0).wave ∧ (readOsc t .ch0).vol ≠ (readOsc (bench 8000) .ch0).vol ∧
    (readOsc t .ch0).vol ≠ 0 := ⟨_, rfl, by decide⟩
theorem witness_WhatNoCommandDoes_notAddressed : Instr.playf .ch0 26163 255 .sawtooth ≠ .next ∧
    channelAddressed (.playf .ch0 26163 255 .sawtooth) ≠ some .ch1 ∧ Instr.rdsr ≠ .next ∧
    channelAddressed .rdsr ≠ some .ch0 := by decide
theorem witness_WhatNoCommandDoes_next : ∃ t, exec .next { bench 8000 with fault := true } = .next t := ⟨_, rfl⟩

theorem witness_ControlBetweenTicks : channelAddressed (.playn .ch0 108 255 .sine) = some .ch0 ∧
    channelAddressed (.off .ch1) = some .ch1 ∧ Channel.ch0 ≠ .ch1 ∧ (Instr.playn .ch0 108 255 .sine).wellFormed = true ∧
    (Instr.off .ch1).wellFormed = true ∧ channelAddressed (.off .ch0) = some .ch0 ∧
    playsOn .ch0 (.playn .ch0 108 255 .sine) = true ∧ (Instr.off .ch0).wellFormed = true := by decide

theorem witness_SilentFieldsAreNeverHeard : ∃ t, exec (.off .ch2) (bench 8000) = .next t := ⟨_, rfl⟩
theorem witness_SilentFieldsAreNeverHeard_expiry : (⟨0, 1, 255, true, 1, .sine⟩ : Oscillator).durActive = true ∧
    (steppedOsc ⟨0, 1, 255, true, 1, .sine⟩).durActive = false := by decide
/-- Two states that differ in phase, step and waveform of a silent channel. -/
theorem witness_SilentFieldsAreNeverHeard_runs :
    (∀ c, SameSound
      (readOsc ({ silentBut ⟨1, 2, 0, false, 0, .noise⟩ with inputs := twoTicks } : State) c)
      (readOsc ({ silentBut ⟨3, 4, 0, false, 0, .square⟩ with inputs := twoTicks } : State) c)) ∧
    silentBut ⟨1, 2, 0, false, 0, .noise⟩ ≠ silentBut ⟨3, 4, 0, false, 0, .square⟩ :=
  ⟨fun c => by cases c <;> decide, by decide⟩
theorem witness_SilentFieldsAreNeverHeard_next :
    ∃ t, Sys2Proof.core.run 4 { silentBut ⟨1, 2, 0, false, 0, .noise⟩ with inputs := twoTicks } = .next t := ⟨_, rfl⟩

theorem witness_SampleStreamIgnoresIllegalAndRdsr : ∃ t, runAll (.command wRdsr :: twoTicks) onePlaying = .next t := ⟨_, rfl⟩
theorem witness_SampleStreamIgnoresIllegalAndRdsr_some : (HostInput.command wRdsr :: twoTicks).filter shapesSound =
    [.command wNext, .command wOff, .command wNext] := by decide

theorem witness_PseudoCommandsExpand : (42949672 ≤ 42949672) ∧ 42949672 < 42949673 := by decide

end Sys2Proof.Tests
end

section
/-! PROOFS for the family 20_memory.md. The wavetable address `{w, i}` of R30 splits in exactly one way into a waveform and an index,
because every 2-bit tag names one waveform. -/

namespace Sys2Proof.Machine

/-- Every address is the address of the waveform its top 2 bits name and the index in its low 8 bits. -/
theorem rom_address_split (a : BitVec 10) : (waveformOf (a.extractLsb' 8 2)).tag ++ a.extractLsb' 0 8 = a := by
  rw [tag_waveformOf, BitVec.extractLsb'_append_extractLsb'_eq_extractLsb' (Nat.zero_add 8).symm, BitVec.extractLsb'_eq_self]

/-- Two reads of one address are of the same waveform and index. -/
theorem rom_address_injective {w x : Waveform} {i j : Byte} (h : w.tag ++ i = x.tag ++ j) : w = x ∧ i = j := by
  obtain ⟨hTag, hIndex⟩ := append_inj.mp h
  exact ⟨Waveform.tag_injective hTag, hIndex⟩

/-- An address has the number `256 * w + i` exactly if it is the concatenation `{w, i}`. -/
theorem toNat_eq_rom_address_iff (a : BitVec 10) (w : Waveform) (i : Byte) :
    a.toNat = 256 * w.tag.toNat + i.toNat ↔ w.tag ++ i = a := by
  rw [← rom_address_toNat, BitVec.toNat_inj]
  exact eq_comm

/-- The ten-bit addresses and the pairs of a waveform and an index correspond one to one. -/
theorem existsUnique_rom_address (a : BitVec 10) :
    ∃! p : Waveform × Byte, a.toNat = 256 * p.1.tag.toNat + p.2.toNat := by
  simp only [toNat_eq_rom_address_iff]
  refine ⟨(waveformOf (a.extractLsb' 8 2), a.extractLsb' 0 8), rom_address_split a, ?_⟩
  rintro ⟨w, i⟩ h
  obtain ⟨hWave, hIndex⟩ := rom_address_injective (h.trans (rom_address_split a).symm)
  exact Prod.ext hWave hIndex

/-- Settles O26: the address is the concatenation `{w, i}`, whose number is `256 * w + i`, and concatenation is one to one. -/
theorem romIsAddressedByWaveAndIndex : Obligations.RomIsAddressedByWaveAndIndex := by
  unfold Obligations.RomIsAddressedByWaveAndIndex
  refine ⟨?address, rfl, rfl, rfl, rfl, existsUnique_rom_address, ?index⟩
  case address => exact fun rom w i => ⟨w.tag ++ i, rfl, rom_address_toNat w i⟩
  case index => exact fun rom o => ⟨tableIndex (advancedPhase o), tableIndex_toNat (advancedPhase o), rfl⟩

end Sys2Proof.Machine
end

section
/-! PROOFS for the family 30_encoding.md. A legal word is its own encoding (R53), the rejecting arms of the decoder are the cases of R57,
and the one response of a command is read off the word and the state (R63). -/

namespace Sys2Proof

/-! ### Legal words (R53) -/

theorem wellFormed_of_decode {cw : CommandWord} {i : Instr} (h : decode cw = .ok i) : i.wellFormed = true := by
  obtain ⟨-, ⟨-, -, -, -, rfl⟩ | ⟨-, -, -, rfl⟩ | ⟨-, -, -, -, -, hNote, rfl⟩ | ⟨-, -, -, -, hNote, rfl⟩ |
    ⟨-, -, -, -, -, -, -, rfl⟩ | ⟨-, rfl⟩ | ⟨-, rfl⟩⟩ := decode_cases h
  · rfl
  · rfl
  · exact hNote
  · exact hNote
  · rfl
  · rfl
  · rfl

/-- A legal word is rebuilt from its fields: those its command carries are put back, and the others are 0. -/
theorem encode_of_decode {cw : CommandWord} {i : Instr} (h : decode cw = .ok i) : encode i = cw := by
  obtain ⟨⟨hRsv0, hRsv1⟩, hCases⟩ := decode_cases h
  have hPack := packWord_fields cw hRsv0 hRsv1
  obtain ⟨hOp, hFsel, hDurEn, hDur, rfl⟩ | ⟨hOp, hFsel, hDurEn, rfl⟩ | ⟨hOp, hFsel, hDurEn, hDur, hHigh, -, rfl⟩ |
    ⟨hOp, hFsel, hDurEn, hHigh, -, rfl⟩ | ⟨hOp, hWave, hFsel, hDurEn, hVol, hFval, hDur, rfl⟩ | ⟨rfl, rfl⟩ | ⟨rfl, rfl⟩ := hCases
  · simpa [encode, hOp, hFsel, hDurEn, hDur] using hPack
  · simpa [encode, hOp, hFsel, hDurEn] using hPack
  · simpa [encode, hOp, hFsel, hDurEn, hDur, note_setWidth cw hHigh] using hPack
  · simpa [encode, hOp, hFsel, hDurEn, note_setWidth cw hHigh] using hPack
  · simpa [encode, hOp, hWave, hFsel, hDurEn, hVol, hFval, hDur] using hPack
  · exact hPack
  · exact hPack

theorem decode_injective {cw cw' : CommandWord} {i : Instr} (h : decode cw = .ok i) (h' : decode cw' = .ok i) : cw = cw' :=
  (encode_of_decode h).symm.trans (encode_of_decode h')

/-- The fields of a legal word that its format does not use are 0. -/
theorem unusedFields_of_decode {cw : CommandWord} {i : Instr} (h : decode cw = .ok i) :
    fieldRsv0 cw = 0 ∧ fieldRsv1 cw = 0 ∧
    (fieldDurEn cw = 0 → fieldDur cw = 0) ∧
    (fieldFsel cw = 1 → fieldFvalHigh cw = 0) ∧
    (fieldOp cw = 2 → fieldWave cw = 0 ∧ fieldFsel cw = 0 ∧ fieldDurEn cw = 0 ∧ fieldVol cw = 0 ∧ fieldFval cw = 0) ∧
    (fieldOp cw = 3 → cw = 3) ∧ (fieldOp cw = 4 → cw = 4) := by
  obtain ⟨⟨hRsv0, hRsv1⟩, hCases⟩ := decode_cases h
  refine ⟨hRsv0, hRsv1, ?_⟩
  obtain ⟨hOp, hFsel, -, hDur, -⟩ | ⟨hOp, hFsel, hDurEn, -⟩ | ⟨hOp, -, -, hDur, hHigh, -⟩ | ⟨hOp, -, hDurEn, hHigh, -⟩ |
    ⟨hOp, hWave, hFsel, hDurEn, hVol, hFval, hDur, -⟩ | ⟨rfl, -⟩ | ⟨rfl, -⟩ := hCases
  · simp [hOp, hFsel, hDur]
  · simp [hOp, hFsel, hDurEn]
  · simp [hOp, hDur, hHigh]
  · simp [hOp, hDurEn, hHigh]
  · simp [hOp, hWave, hFsel, hDurEn, hVol, hFval, hDur]
  · decide
  · decide

/-- Settles O3: encoding inverts decoding on legal words, so decoding is injective, and each format leaves its unused fields 0. -/
theorem legalWordsAreCanonical : Obligations.LegalWordsAreCanonical := by
  unfold Obligations.LegalWordsAreCanonical
  exact ⟨fun _ _ h => ⟨wellFormed_of_decode h, encode_of_decode h⟩, fun _ _ _ => decode_injective,
    fun _ _ => unusedFields_of_decode⟩

/-! ### Illegal words (R57) -/

/-- R57 c, d, e: why a PLAY is rejected. -/
theorem decodePlay_rejects_iff (cw : CommandWord) : (∃ e, decodePlay cw = .error e) ↔
    (fieldDurEn cw = 0 ∧ fieldDur cw ≠ 0) ∨ (fieldFsel cw = 1 ∧ fieldFvalHigh cw ≠ 0) ∨
      (fieldFsel cw = 1 ∧ 109 ≤ (fieldNote cw).toNat) := by
  rw [← noteInTable_eq_false_iff]
  unfold decodePlay
  dsimp only
  split
  next hDur => exact iff_of_true ⟨_, rfl⟩ (.inl hDur)
  next hDur =>
  split
  next hHigh => exact iff_of_true ⟨_, rfl⟩ (.inr (.inl hHigh))
  next hHigh =>
  split
  next hNote => exact iff_of_true ⟨_, rfl⟩ (.inr (.inr hNote))
  next hNote =>
    refine iff_of_false ?_ (not_or.2 ⟨hDur, not_or.2 ⟨hHigh, hNote⟩⟩)
    rintro ⟨e, h⟩
    split at h <;> split at h <;> cases h

/-- R57 f: why an OFF is rejected. -/
theorem decodeOff_rejects_iff (cw : CommandWord) : (∃ e, decodeOff cw = .error e) ↔
    fieldWave cw ≠ 0 ∨ fieldFsel cw ≠ 0 ∨ fieldDurEn cw ≠ 0 ∨ fieldVol cw ≠ 0 ∨ fieldFval cw ≠ 0 ∨ fieldDur cw ≠ 0 := by
  unfold decodeOff
  split
  next hUsed => exact iff_of_true ⟨_, rfl⟩ hUsed
  next hUsed => exact iff_of_false (fun ⟨_, h⟩ => by cases h) hUsed

/-- R57 g: why a NEXT or RDSR is rejected. -/
theorem decodeBare_rejects_iff {cw op : CommandWord} {i : Instr} (hOp : fieldOp cw = fieldOp op) (hBare : op.toNat < 2 ^ 4) :
    (∃ e, decodeBare cw op i = .error e) ↔ cw.toNat / 2 ^ 4 ≠ 0 := by
  have hLow : cw.toNat % 2 ^ 4 = op.toNat % 2 ^ 4 := by rw [← fieldOp_toNat, hOp, fieldOp_toNat]
  unfold decodeBare
  split
  next hEq => exact iff_of_false (fun ⟨_, h⟩ => by cases h) (by rw [hEq]; omega)
  next hNe => exact iff_of_true ⟨_, rfl⟩ fun hHigh => hNe (BitVec.eq_of_toNat_eq (by omega))

/-- R57 a: the opcodes of no row. -/
theorem op_unassigned_iff (op : BitVec 4) : (op = 0 ∨ 5 ≤ op.toNat) ↔ op ≠ 1 ∧ op ≠ 2 ∧ op ≠ 3 ∧ op ≠ 4 := by
  revert op; decide

/-- R57: a word is rejected by the check of its reserved bits or by the arm of its opcode. -/
theorem decode_rejects_iff (cw : CommandWord) : (∃ e, decode cw = .error e) ↔
    (fieldOp cw = 0 ∨ 5 ≤ (fieldOp cw).toNat) ∨
    (fieldRsv0 cw ≠ 0 ∨ fieldRsv1 cw ≠ 0) ∨
    (fieldOp cw = 1 ∧ fieldDurEn cw = 0 ∧ fieldDur cw ≠ 0) ∨
    (fieldOp cw = 1 ∧ fieldFsel cw = 1 ∧ fieldFvalHigh cw ≠ 0) ∨
    (fieldOp cw = 1 ∧ fieldFsel cw = 1 ∧ 109 ≤ (fieldNote cw).toNat) ∨
    (fieldOp cw = 2 ∧ (fieldWave cw ≠ 0 ∨ fieldFsel cw ≠ 0 ∨ fieldDurEn cw ≠ 0 ∨ fieldVol cw ≠ 0 ∨ fieldFval cw ≠ 0 ∨
      fieldDur cw ≠ 0)) ∨
    ((fieldOp cw = 3 ∨ fieldOp cw = 4) ∧ cw.toNat / 2 ^ 4 ≠ 0) := by
  rw [op_unassigned_iff]
  unfold decode
  split
  next hRsv => exact iff_of_true ⟨_, rfl⟩ (.inr (.inl hRsv))
  next hRsv =>
  split
  next hOp => simp only [decodePlay_rejects_iff, hOp, hRsv]; simp
  next hOp1 =>
  split
  next hOp => simp only [decodeOff_rejects_iff, hOp, hRsv]; simp
  next hOp2 =>
  split
  next hOp => simp only [decodeBare_rejects_iff (op := 3) hOp (by decide), hOp, hRsv]; simp
  next hOp3 =>
  split
  next hOp => simp only [decodeBare_rejects_iff (op := 4) hOp (by decide), hOp, hRsv]; simp
  next hOp4 => exact iff_of_true ⟨_, rfl⟩ (.inl ⟨hOp1, hOp2, hOp3, hOp4⟩)

end Sys2Proof

namespace Sys2Proof.Machine

open Sys2Proof.Safety

theorem raisedIllegal_raise (e : Fault) (s : State) : RaisedIllegal s (raise e s) :=
  ⟨raise_fault e s, raise_responses e s, raise_osc e s, raise_sr e s, raise_inputs e s⟩

/-- Settles O5: the arms of the decoder reject in the cases of R57, and accepting a rejected word is raising IllegalCommand. -/
theorem illegalWordsAreThoseOfR57 : Obligations.IllegalWordsAreThoseOfR57 := by
  unfold Obligations.IllegalWordsAreThoseOfR57
  exact ⟨decode_rejects_iff, fun s _ _ h => ⟨_, acceptWord_of_error h s, raisedIllegal_raise .illegalCommand s⟩⟩

/-! ### The response of a command (R63) -/

@[simp] theorem sampleData_sample (b : Byte) : (sampleData b).extractLsb' 0 8 = b :=
  BitVec.extractLsb'_append_eq_right

@[simp] theorem sampleData_pcm (b : Byte) : (sampleData b).extractLsb' 8 8 = toPcm b :=
  (BitVec.extractLsb'_append_eq_of_le (by decide)).trans BitVec.extractLsb'_append_eq_right

@[simp] theorem sampleData_upper (b : Byte) : (sampleData b).extractLsb' 16 16 = 0 :=
  (BitVec.extractLsb'_append_eq_of_le (by decide)).trans BitVec.extractLsb'_append_eq_left

/-- R104: a signed byte plus 128 lies in 0 to 255, so nothing is lost in the unsigned byte. -/
theorem toPcm_toNat (b : Byte) : ((toPcm b).toNat : Int) = b.toInt + 128 := by
  have hLow := BitVec.le_toInt b
  have hHigh := BitVec.toInt_lt (x := b)
  rw [toPcm, BitVec.toNat_ofInt]
  omega

/-- What the host is answered to a word, by what the word decodes to (R63). -/
def answer (d : Except IllegalReason Instr) (s : State) : Response :=
  match d with
  | .ok .next => ⟨.sample, sampleData (nextSample Config.wt s.osc)⟩
  | .ok .rdsr => ⟨.rate, s.sr⟩
  | .ok _ => ⟨.ack, 0⟩
  | .error _ => ⟨.err, 0⟩

theorem answer_of_channelAddressed {i : Instr} {c : Channel} (h : channelAddressed i = some c) (s : State) :
    answer (.ok i) s = ⟨.ack, 0⟩ := by
  cases i with
  | next | rdsr => cases h
  | _ => rfl

/-- A legal command appends its answer to whatever was answered before, and is otherwise blind to it. -/
theorem exec_answers {i : Instr} (hw : i.wellFormed = true) (s : State) :
    ∃ t : State, ∀ past, exec i { s with responses := past } = .next { t with responses := past ++ [answer (.ok i) s] } := by
  cases hc : channelAddressed i with
  | some c =>
    obtain ⟨g, hExec, -⟩ := exec_addressed hc hw
    refine ⟨writeOsc s c (g s.sr (readOsc s c)), fun past => ?_⟩
    rw [hExec, answer_of_channelAddressed hc]
    rfl
  | none =>
    cases i with
    | next => exact ⟨tickWith Config.wt s, fun _ => rfl⟩
    | rdsr => exact ⟨s, fun _ => rfl⟩
    | _ => cases hc

theorem step_answers {s : State} {cw : CommandWord} {rest : List HostInput} (h : s.inputs = .command cw :: rest) :
    ∃ t : State, ∀ past, step { s with responses := past } = .next { t with responses := past ++ [answer (decode cw) s] } := by
  have hStep (past : List Response) :
      step { s with responses := past } = acceptWord cw { s with inputs := rest, responses := past } :=
    step_cons (s := { s with responses := past }) h
  cases hd : decode cw with
  | ok i =>
    obtain ⟨t, hExec⟩ := exec_answers (wellFormed_of_decode hd) { s with inputs := rest }
    exact ⟨t, fun past => (hStep past).trans ((acceptWord_of_ok hd _).trans (hExec past))⟩
  | error e =>
    exact ⟨raise .illegalCommand { s with inputs := rest }, fun past => (hStep past).trans (acceptWord_of_error hd _)⟩

/-- Settles O44: the one response is `answer`, whose sample data come apart into the sample, its PCM byte and 0. -/
theorem eachCommandAnswersOnce : Obligations.EachCommandAnswersOnce := by
  unfold Obligations.EachCommandAnswersOnce
  refine ⟨fun s cw rest hs => ?_, rfl, rfl, rfl, rfl⟩
  obtain ⟨t, hStep⟩ := step_answers hs
  refine ⟨answer (decode cw) s, t, hStep, ?_⟩
  cases decode cw with
  | error e => rfl
  | ok i =>
    cases i with
    | next => simp [answer, toPcm_toNat]
    | _ => rfl

end Sys2Proof.Machine
end

section
/-! PROOFS for the family 40_note_frequency.md. That an entry of the note table is the nearest integer to an irrational frequency is
decided on natural numbers: the twelfth power of the frequency is rational, and so are those of the two halves around the entry. -/

namespace Sys2Proof.Machine

/-! ### The note table (R72) -/

/-- The frequency of the note with index `k` in centi-hertz, not yet rounded (R72). -/
noncomputable def exactCentiHertz (k : Nat) : ℝ := 440 * 2 ^ (((k : ℝ) - 58) / 12) * 100

theorem exactCentiHertz_nonneg (k : Nat) : 0 ≤ exactCentiHertz k := by
  unfold exactCentiHertz
  positivity

theorem exactCentiHertz_pow_twelve (k : Nat) : exactCentiHertz k ^ 12 * 2 ^ 58 = 44000 ^ 12 * 2 ^ k := by
  have hRoot : ((2 : ℝ) ^ (((k : ℝ) - 58) / 12)) ^ 12 * 2 ^ 58 = 2 ^ k := by
    rw [← Real.rpow_mul_natCast zero_le_two, ← Real.rpow_natCast 2 58, ← Real.rpow_add two_pos, ← Real.rpow_natCast 2 k]
    norm_num
  calc exactCentiHertz k ^ 12 * 2 ^ 58
      = 44000 ^ 12 * (((2 : ℝ) ^ (((k : ℝ) - 58) / 12)) ^ 12 * 2 ^ 58) := by unfold exactCentiHertz; ring
    _ = 44000 ^ 12 * 2 ^ k := by rw [hRoot]

/-- The frequency of note `k` lies strictly between `n - 1/2` and `n + 1/2`, written without roots: both sides of each inequality
are twelfth powers times `2 ^ 70`. -/
def RoundsTo (k n : Nat) : Prop :=
  (2 * n - 1) ^ 12 * 2 ^ 58 < 88000 ^ 12 * 2 ^ k ∧ 88000 ^ 12 * 2 ^ k < (2 * n + 1) ^ 12 * 2 ^ 58

theorem abs_exactCentiHertz_sub_lt {k n : Nat} (hn : 1 ≤ n) (h : RoundsTo k n) : |exactCentiHertz k - n| < 1 / 2 := by
  obtain ⟨hAbove, hBelow⟩ := h
  have hPow := exactCentiHertz_pow_twelve k
  have hLow : 2 * (n : ℝ) - 1 < 2 * exactCentiHertz k := by
    refine lt_of_pow_lt_pow_left₀ 12 (mul_nonneg zero_le_two (exactCentiHertz_nonneg k)) ?_
    have hSub : 2 * (n : ℝ) - 1 = (2 * n - 1 : Nat) := by rw [Nat.cast_pred (by omega)]; push_cast; rfl
    have hCast : (2 * (n : ℝ) - 1) ^ 12 * 2 ^ 58 < 88000 ^ 12 * 2 ^ k := by rw [hSub]; exact_mod_cast hAbove
    rw [mul_pow]
    linarith
  have hHigh : 2 * exactCentiHertz k < 2 * (n : ℝ) + 1 := by
    refine lt_of_pow_lt_pow_left₀ 12 (by positivity) ?_
    have hCast : (88000 : ℝ) ^ 12 * 2 ^ k < (2 * n + 1) ^ 12 * 2 ^ 58 := by exact_mod_cast hBelow
    rw [mul_pow]
    linarith
  rw [abs_sub_lt_iff]
  constructor <;> linarith

theorem noteTable_roundsTo : ∀ k, (h : k < noteTable.length) → 1 ≤ k → 1 ≤ noteTable[k] ∧ RoundsTo k noteTable[k] := by
  unfold RoundsTo
  decide

theorem noteTable_pred_lt : ∀ k, (h : k < noteTable.length) → 1 ≤ k → noteTable[k - 1] < noteTable[k] := by decide

theorem noteTable_sortedLT : noteTable.SortedLT :=
  List.sortedLT_iff_isChain.2 (List.isChain_iff_getElem.2 fun k h => noteTable_pred_lt (k + 1) h k.succ_pos)

theorem noteTable_le : ∀ m ∈ noteTable, m ≤ 790213 := by decide

/-- A note read is an entry of the table: it fits the word. -/
theorem noteTable_of_lutRead {k : BitVec 7} {n : Word} (h : lutRead k = some n) :
    ∃ hk : k.toNat < noteTable.length, noteTable[k.toNat] = n.toNat := by
  obtain ⟨m, hEntry, rfl⟩ := Option.map_eq_some_iff.1 h
  obtain ⟨hk, rfl⟩ := List.getElem?_eq_some_iff.1 hEntry
  have hMax := noteTable_le _ (List.getElem_mem hk)
  exact ⟨hk, by rw [BitVec.toNat_ofNat, Nat.mod_eq_of_lt (by omega)]⟩

theorem lutRead_nearest {k : BitVec 7} {n : Word} (hk : 1 ≤ k.toNat) (h : lutRead k = some n) :
    |exactCentiHertz k.toNat - n.toNat| < 1 / 2 := by
  obtain ⟨hLength, hEntry⟩ := noteTable_of_lutRead h
  obtain ⟨hPos, hRounds⟩ := noteTable_roundsTo k.toNat hLength hk
  rw [← hEntry]
  exact abs_exactCentiHertz_sub_lt hPos hRounds

theorem lutRead_strictMono {j k : BitVec 7} {m n : Word} (hj : lutRead j = some m) (hk : lutRead k = some n)
    (h : j.toNat < k.toNat) : m.toNat < n.toNat := by
  obtain ⟨hjLength, hjEntry⟩ := noteTable_of_lutRead hj
  obtain ⟨hkLength, hkEntry⟩ := noteTable_of_lutRead hk
  rw [← hjEntry, ← hkEntry]
  exact noteTable_sortedLT.getElem_lt_getElem_of_lt h

theorem lutRead_le {k : BitVec 7} {n : Word} (h : lutRead k = some n) : n.toNat ≤ 790213 := by
  obtain ⟨hLength, hEntry⟩ := noteTable_of_lutRead h
  rw [← hEntry]
  exact noteTable_le _ (List.getElem_mem hLength)

/-- Settles O14: each entry rounds its frequency, by comparison of twelfth powers, and the table is sorted with its largest entry last. -/
theorem noteTableIsEqualTempered : Obligations.NoteTableIsEqualTempered := by
  unfold Obligations.NoteTableIsEqualTempered
  refine ⟨by decide, ?nearest, fun _ _ _ _ => lutRead_strictMono, fun _ _ => lutRead_le, by decide⟩
  case nearest =>
    intro k hPos hMax
    obtain ⟨n, hRead⟩ := lutRead_of_le hMax
    exact ⟨n, hRead, lutRead_nearest hPos hRead⟩

/-! ### The phase step (R74) -/

theorem divByRate_of_ne_zero {rate : Word} (h : rate ≠ 0) (a : Word) : divByRate a rate = a / rate := if_neg h

/-- R74 on natural numbers, a wrap after each product and a cut at the end. -/
theorem phaseStep_toNat {rate : Word} (h : rate ≠ 0) (chz : Word) : (phaseStep rate chz).toNat =
    chz.toNat * 256 % 2 ^ 32 / rate.toNat * 256 % 2 ^ 32 / 100 % 2 ^ 16 := by
  simp only [phaseStep, divByRate_of_ne_zero h, BitVec.toNat_setWidth, BitVec.toNat_udiv, BitVec.toNat_mul]
  rfl

/-- Settles O16: the words of R74 read as natural numbers. -/
theorem phaseStepIsR74 : Obligations.PhaseStepIsR74 := by
  unfold Obligations.PhaseStepIsR74
  exact ⟨fun _ chz h => phaseStep_toNat h chz, by decide⟩

/-! ### Durations in milliseconds (R77) -/

/-- The saturated count fits the word. -/
theorem durFromMs_toNat (rate ms : Word) :
    (durFromMs rate ms).toNat = min (ms.toNat * rate.toNat / 1000) (2 ^ 32 - 1) := by
  rw [durFromMs, BitVec.toNat_ofNat, Nat.mod_eq_of_lt (by omega)]

theorem durFromMs_eq_zero {rate ms : Word} (h : ms.toNat * rate.toNat < 1000) : durFromMs rate ms = 0 := by
  apply BitVec.eq_of_toNat_eq
  rw [durFromMs_toNat, Nat.div_eq_of_lt h]
  rfl

theorem durFromMs_saturates {rate ms : Word} (h : 1000 * 2 ^ 32 ≤ ms.toNat * rate.toNat) :
    (durFromMs rate ms).toNat = 2 ^ 32 - 1 := by
  rw [durFromMs_toNat]
  omega

/-- Settles O19: the formula of R77, whose quotient is 0 below 1000 and at least `2 ^ 32` where the counter saturates. -/
theorem durationFromMilliseconds : Obligations.DurationFromMilliseconds := by
  unfold Obligations.DurationFromMilliseconds
  exact ⟨durFromMs_toNat, fun _ _ => durFromMs_eq_zero, fun _ _ => durFromMs_saturates, by decide, by decide⟩

end Sys2Proof.Machine
end

section
/-! PROOFS for the family 41_oscillator_step.md. The three parts of one tick: the phase advance (R81), the table read and the product
(R82), and the three forms of the timer step (R84), each read as natural numbers. -/

namespace Sys2Proof.Machine

theorem advancedPhase_toNat (o : Oscillator) : (advancedPhase o).toNat = (o.phase.toNat + o.step.toNat) % 65536 :=
  BitVec.toNat_add o.phase o.step

/-- The contribution is the entry at the address of the advanced phase, times the volume (R82). -/
theorem contribution_eq_of_toNat_eq {o : Oscillator} {a : BitVec 10}
    (h : a.toNat = 256 * o.wave.tag.toNat + (o.phase.toNat + o.step.toNat) % 65536 / 256) (rom : Rom) :
    contribution rom o = (rom a).toInt * o.vol.toNat := by
  rw [← advancedPhase_toNat, ← tableIndex_toNat, toNat_eq_rom_address_iff] at h
  rw [← h]
  rfl

theorem exists_contribution_address (rom : Rom) (o : Oscillator) : ∃ a : BitVec 10,
    a.toNat = 256 * o.wave.tag.toNat + (o.phase.toNat + o.step.toNat) % 65536 / 256 ∧
    contribution rom o = (rom a).toInt * o.vol.toNat := by
  refine ⟨o.wave.tag ++ tableIndex (advancedPhase o), ?_, rfl⟩
  rw [rom_address_toNat, tableIndex_toNat, advancedPhase_toNat]

/-- A running timer that does not expire goes down by one, and wraps at 0 (R84). -/
theorem timerStep_durCount_toNat {o : Oscillator} (h : o.durActive = true) (h1 : o.durCount ≠ 1) :
    (timerStep o).durCount.toNat = (o.durCount.toNat + (2 ^ 32 - 1)) % 2 ^ 32 := by
  rw [timerStep_count h h1, BitVec.toNat_sub, add_comm]
  rfl

/-- Settles O27: the phase and the address are read as numbers, and the record is one of the three forms of the timer step. -/
theorem oscillatorStepIsR85 : Obligations.OscillatorStepIsR85 := by
  unfold Obligations.OscillatorStepIsR85
  refine ⟨fun rom o => ⟨advancedPhase_toNat o, exists_contribution_address rom o, steppedOsc_step o, steppedOsc_wave o,
    ?expire, ?count, ?idle⟩, ?worked⟩
  case expire =>
    intro hActive hOne
    simp [oscStep, timerStep_expire hActive hOne]
  case count =>
    intro hActive hOne
    refine ⟨?_, ?_, timerStep_durCount_toNat hActive hOne⟩ <;> simp [oscStep, timerStep_count hActive hOne, hActive]
  case idle =>
    intro hIdle
    simp [oscStep, timerStep_idle hIdle, hIdle]
  case worked =>
    intro rom hEntry
    refine Prod.ext rfl ?_
    calc contribution rom ⟨0x4000, 0x2000, 255, true, 1, .square⟩
        = (rom 0x260).toInt * 255 := contribution_eq_of_toNat_eq (by decide) rom
      _ = 32385 := by rw [hEntry]; rfl

end Sys2Proof.Machine
end

section
/-! PROOFS for the family 43_next_downmix.md. The path from the contributions to the response in its stages: the bounds of one
contribution, the mix sum as a sum over the channels, the rescale and the clamp on integers, and the sample and PCM bytes. -/

namespace Sys2Proof.Machine

/-! ### One contribution (R83) -/

/-- A contribution is the product of a signed byte and an unsigned one. -/
theorem contribution_bounds (rom : Rom) (o : Oscillator) : -32640 ≤ contribution rom o ∧ contribution rom o ≤ 32385 := by
  obtain ⟨hLow, hHigh⟩ := entry_bounds rom o.wave (tableIndex (advancedPhase o))
  have hVol : (o.vol.toNat : Int) ≤ 255 := by have := o.vol.isLt; omega
  unfold contribution
  constructor <;> nlinarith

theorem contribution_of_vol_eq_zero (rom : Rom) {o : Oscillator} (h : o.vol = 0) : contribution rom o = 0 := by
  simp [contribution, h]

/-! ### The mix sum (R101) -/

theorem mixAdd_eq_sum (rom : Rom) (f : OscFile) :
    mixAdd rom f = ([Channel.ch0, .ch1, .ch2, .ch3].map fun c => contribution rom (f.read c)).sum := by
  simp [mixAdd, oscStep, OscFile.read, add_assoc]

theorem sum_contribution_of_perm (rom : Rom) (f : OscFile) {order : List Channel} (h : order.Perm [.ch0, .ch1, .ch2, .ch3]) :
    (order.map fun c => contribution rom (f.read c)).sum = mixAdd rom f := by
  rw [mixAdd_eq_sum]
  exact (h.map _).sum_eq

theorem mixAdd_bounds (rom : Rom) (f : OscFile) : -130560 ≤ mixAdd rom f ∧ mixAdd rom f ≤ 129540 := by
  have h0 := contribution_bounds rom f.osc0
  have h1 := contribution_bounds rom f.osc1
  have h2 := contribution_bounds rom f.osc2
  have h3 := contribution_bounds rom f.osc3
  simp only [mixAdd, oscStep]
  omega

/-- Where only one channel can sound, the mix sum is its contribution. -/
theorem mixAdd_of_others_silent (rom : Rom) {f : OscFile} {c : Channel} (h : ∀ d, d ≠ c → (f.read d).vol = 0) :
    mixAdd rom f = contribution rom (f.read c) := by
  have hOnce : [Channel.ch0, .ch1, .ch2, .ch3].count c = 1 := by cases c <;> rfl
  rw [mixAdd_eq_sum, List.sum_map_eq_nsmul_single c _ fun d hd _ => contribution_of_vol_eq_zero rom (h d hd), hOnce, one_nsmul]

theorem mixAdd_of_silent (rom : Rom) {f : OscFile} (h : ∀ c, (f.read c).vol = 0) : mixAdd rom f = 0 :=
  (mixAdd_of_others_silent rom fun d _ => h d).trans (contribution_of_vol_eq_zero rom (h .ch0))

/-- A wrapping accumulator holds every value of the mix sum from 18 bits on. -/
theorem toInt_ofInt_mixAdd (rom : Rom) (f : OscFile) {n : Nat} (h : 18 ≤ n) :
    (BitVec.ofInt n (mixAdd rom f)).toInt = mixAdd rom f := by
  obtain ⟨hLow, hHigh⟩ := mixAdd_bounds rom f
  have hWidth : (2 : Int) ^ 17 ≤ 2 ^ (n - 1) := pow_le_pow_right₀ one_le_two (by omega)
  exact BitVec.toInt_ofInt_eq_self (by omega) (by omega) (by omega)

/-- Settles O35: the sum does not depend on the order of its terms, its bounds add up from those of a contribution, and reducing
modulo `2 ^ n` commutes with addition. -/
theorem mixSumNeverOverflows : Obligations.MixSumNeverOverflows := by
  unfold Obligations.MixSumNeverOverflows
  intro rom f
  obtain ⟨hLow, hHigh⟩ := mixAdd_bounds rom f
  refine ⟨rfl, fun c => contribution_bounds rom (f.read c), hLow, hHigh, fun _ => sum_contribution_of_perm rom f, ?wraps⟩
  case wraps =>
    intro n hn
    simp only [← BitVec.ofInt_add]
    exact toInt_ofInt_mixAdd rom f hn

/-! ### The clipper (R103) -/

theorem clamp8_bounds (x : Int) : -128 ≤ clamp8 x ∧ clamp8 x ≤ 127 := by
  unfold clamp8
  omega

theorem clamp8_of_lt {x : Int} (h : x < -128) : clamp8 x = -128 := by
  unfold clamp8
  omega

theorem clamp8_of_gt {x : Int} (h : 127 < x) : clamp8 x = 127 := by
  unfold clamp8
  omega

theorem clamp8_of_mem {x : Int} (hLow : -128 ≤ x) (hHigh : x ≤ 127) : clamp8 x = x := by
  unfold clamp8
  omega

/-- A clamped value fits the signed byte. -/
theorem sampleByte_clamp8_toInt (x : Int) : (sampleByte (clamp8 x)).toInt = clamp8 x := by
  obtain ⟨hLow, hHigh⟩ := clamp8_bounds x
  exact BitVec.toInt_ofInt_eq_self (by decide) (by omega) (by omega)

/-- Settles O37: the clamp below, above and inside the range, and a clamped value fits the byte. -/
theorem clipperSaturates : Obligations.ClipperSaturates := by
  unfold Obligations.ClipperSaturates
  exact ⟨fun _ => rfl, fun _ => ⟨clamp8_of_lt, clamp8_of_gt, clamp8_of_mem⟩, sampleByte_clamp8_toInt, by decide⟩

/-! ### The rescale (R102) -/

theorem rescale_eq_floor (acc : Int) : rescale acc = ⌊(acc : ℚ) / 1024⌋ :=
  (rescale_eq_div acc).trans (Rat.floor_intCast_div_natCast acc 1024).symm

/-- Conflict C2: where the shift and the truncating division differ. -/
theorem rescale_eq_tdiv_sub_one {acc : Int} (hNeg : acc < 0) (hRest : ¬ (1024 : Int) ∣ acc) :
    rescale acc = Int.tdiv acc 1024 - 1 := by
  have hTrunc : Int.tdiv acc 1024 = acc / 1024 + 1 := by
    rw [Int.tdiv_eq_ediv, if_neg (not_or.2 ⟨not_le.2 hNeg, hRest⟩)]
    rfl
  rw [rescale_eq_div, hTrunc]
  omega

theorem rescale_small_negative {acc : Int} (hLow : -1024 ≤ acc) (hNeg : acc < 0) : rescale acc = -1 := by
  rw [rescale_eq_div]
  omega

/-- Settles O36: the shift is the floor division, which differs from the truncating one by 1 below a negative non-multiple. -/
theorem rescaleRoundsDown : Obligations.RescaleRoundsDown := by
  unfold Obligations.RescaleRoundsDown
  refine ⟨rescale_eq_floor, by decide, by decide, by decide, by decide, fun _ => rescale_eq_tdiv_sub_one, ?small⟩
  case small =>
    intro acc hLow hNeg
    rw [rescale_small_negative hLow hNeg]
    rfl

/-! ### The PCM byte (R104) -/

theorem toPcm_eq_xor : ∀ sample : Byte, toPcm sample = sample ^^^ 0x80 := by decide

/-- Inverting bit 7 twice is the identity. -/
theorem toPcm_involutive : Function.Involutive toPcm := fun sample => by
  rw [toPcm_eq_xor, toPcm_eq_xor, BitVec.xor_assoc, BitVec.xor_self, BitVec.xor_zero]

/-- Settles O38: the PCM byte inverts bit 7 of the sample, so `to_pcm` is its own inverse. -/
theorem pcmIsSamplePlus128 : Obligations.PcmIsSamplePlus128 := by
  unfold Obligations.PcmIsSamplePlus128
  exact ⟨toPcm_toNat, toPcm_eq_xor, toPcm_involutive.bijective, by decide⟩

/-! ### NEXT (R100) -/

theorem nextSample_toInt (rom : Rom) (f : OscFile) :
    (nextSample rom f).toInt = max (-128) (min 127 (mixAdd rom f / 1024)) := by
  rw [nextSample, sampleByte_clamp8_toInt, rescale_eq_div, clamp8]

theorem nextSample_of_silent (rom : Rom) {f : OscFile} (h : ∀ c, (f.read c).vol = 0) : nextSample rom f = 0 := by
  rw [nextSample, mixAdd_of_silent rom h]
  rfl

/-- R100's example: the state after a reset at 8000 and `PLAYF 0, 26163, 255, SAW`. -/
def exampleState : State := doPlay .ch0 26163 none 255 .sawtooth (State.afterReset 8000 [] [])

/-- Only channel 0 sounds in the example, at entry 8 of the sawtooth. -/
theorem mixAdd_exampleState {rom : Rom} (h : (rom 0x108).toInt = -120) : mixAdd rom exampleState.osc = -30600 := by
  have hOthers (d : Channel) (hd : d ≠ .ch0) : (readOsc exampleState d).vol = 0 := by
    rw [exampleState, readOsc_doPlay_ne _ _ _ _ _ hd, readOsc_afterReset]
    rfl
  calc mixAdd rom exampleState.osc
      = contribution rom (readOsc exampleState .ch0) := mixAdd_of_others_silent rom hOthers
    _ = (rom 0x108).toInt * 255 := contribution_eq_of_toNat_eq (by decide) rom
    _ = -30600 := by rw [h]; rfl

theorem tickWith_exampleState {rom : Rom} (h : (rom 0x108).toInt = -120) :
    (readOsc (tickWith rom exampleState) .ch0).phase = 0x085E ∧
    (tickWith rom exampleState).responses = exampleState.responses ++ [⟨.sample, 0x000062E2⟩] := by
  constructor
  · rw [readOsc_tickWith]
    decide
  · rw [tickWith_responses, nextSample, mixAdd_exampleState h]
    rfl

/-- Settles O34: NEXT is one tick, whose response is made of the sample of the mix sum, and no part of it reads `SR`. -/
theorem nextProducesOneSample : Obligations.NextProducesOneSample := by
  unfold Obligations.NextProducesOneSample
  refine ⟨fun s => ?tick, fun rom h => ⟨exampleState, rfl, tickWith_exampleState h⟩⟩
  case tick =>
    refine ⟨tickWith Config.wt s, nextSample Config.wt s.osc, toPcm (nextSample Config.wt s.osc), exec_nextTick s, rfl,
      readOsc_tickWith Config.wt s, tickWith_sr _ s, tickWith_fault _ s, tickWith_inputs _ s, tickWith_responses _ s,
      nextSample_toInt Config.wt s.osc, toPcm_toNat _, ?silence, fun rate => ⟨_, exec_nextTick _, rfl, rfl⟩⟩
    case silence =>
      intro hSilent
      rw [nextSample_of_silent Config.wt hSilent]
      decide

end Sys2Proof.Machine
end

section
/-! PROOFS for the family 60_exceptions.md. The step that raises IllegalCommand (R112), and that `FAULT` is sticky: a command leaves it
or sets it, so only the reset event clears it. -/

namespace Sys2Proof.Machine

open Sys2Proof.Safety

theorem faulted_of_fault {s : State} (h : s.fault = true) : faulted s = some .illegalCommand := if_pos h

theorem playNote_keeps_fault {s : State} (h : s.fault = true) (c : Channel) (k : BitVec 7) (d : Duration) (v : Byte)
    (w : Waveform) : (playNote c k d v w s).fault = true := by
  obtain ⟨f, -, hPlay⟩ | ⟨-, hRaise⟩ := playNote_cases c k d v w s
  · rw [hPlay, doPlay_fault, h]
  · rw [hRaise, raise_fault]

theorem exec_keeps_fault {i : Instr} {s t : State} (hExec : exec i s = .next t) (h : s.fault = true) : t.fault = true := by
  cases i with
  | playn c k v w => cases hExec; exact playNote_keeps_fault h c k none v w
  | playnd c k d v w => cases hExec; exact playNote_keeps_fault h c k (some d) v w
  | playf | playfd | off | next | rdsr => cases hExec; exact h

theorem accept_keeps_fault {e : HostInput} {s t : State} (hAccept : accept e s = .next t) (h : s.fault = true) :
    t.fault = true ∨ ∃ rate, e = .reset rate := by
  obtain ⟨_, _, -, -, hExec⟩ | ⟨_, _, -, -, rfl⟩ | ⟨rate, hReset, -, -⟩ := accept_cases hAccept
  · exact .inl (exec_keeps_fault hExec h)
  · exact .inl (raise_fault _ _)
  · exact .inr ⟨rate, hReset⟩

theorem step_keeps_fault {s t : State} (h : s.fault = true) (hStep : step s = .next t) :
    t.fault = true ∨ ∃ rate rest, s.inputs = .reset rate :: rest := by
  obtain ⟨-, rfl⟩ | ⟨e, rest, hInputs, hAccept⟩ := step_cases hStep
  · exact .inl h
  · obtain hFault | ⟨rate, rfl⟩ := accept_keeps_fault hAccept h
    · exact .inl hFault
    · exact .inr ⟨rate, rest, hInputs⟩

/-- A step on a legal word executes what it decodes to (R50). -/
theorem step_of_decode_ok {s : State} {cw : CommandWord} {rest : List HostInput} {i : Instr}
    (h : s.inputs = .command cw :: rest) (hd : decode cw = .ok i) : step s = exec i { s with inputs := rest } :=
  (step_cons h).trans (acceptWord_of_ok hd _)

/-- A step on an illegal word raises IllegalCommand and goes on (R112). -/
theorem step_of_decode_error {s : State} {cw : CommandWord} {rest : List HostInput} {e : IllegalReason}
    (h : s.inputs = .command cw :: rest) (hd : decode cw = .error e) :
    step s = .next (raise .illegalCommand { s with inputs := rest }) :=
  (step_cons h).trans (acceptWord_of_error hd _)

/-- Settles O8: the step raises, what is still presented is left for the next step, and no command clears `FAULT`. -/
theorem illegalCommandIsReportedAndHarmless : Obligations.IllegalCommandIsReportedAndHarmless := by
  unfold Obligations.IllegalCommandIsReportedAndHarmless
  refine ⟨fun s cw rest e hInputs hd => ?raised, fun _ _ => step_keeps_fault⟩
  case raised =>
    refine ⟨_, step_of_decode_error hInputs hd, raisedIllegal_raise _ _, faulted_of_fault (raise_fault _ _), ?_⟩
    intro cw' rest' i hRest hd'
    exact step_of_decode_ok ((raise_inputs _ _).trans hRest) hd'

end Sys2Proof.Machine
end

section
/-! PROOFS for the family other: the statements that rest on rules of more than one of the spec's files. The four PLAY encodings are one
PLAY of a pitch; the effect of a command is a function of the oscillators and the rate, which gives the noninterference statements; and
the statements about runs follow from what one event does to one channel, by induction on the events. -/

namespace Sys2Proof

/-! ### The decoder and the opcode map (R51 to R56) -/

/-- Settles O2: the decoder reads back each field of a packed word, and a well-formed note passes the one check that is left. -/
theorem decodeOfEncodeIsIdentity : Obligations.DecodeOfEncodeIsIdentity := by
  unfold Obligations.DecodeOfEncodeIsIdentity
  intro i hw
  cases i with
  | playf => simp [encode, decode, decodePlay]
  | playfd => simp [encode, decode, decodePlay]
  | playn c k v w =>
    have hNote : noteInTable k = true := hw
    simp [encode, decode, decodePlay, hNote]
  | playnd c k d v w =>
    have hNote : noteInTable k = true := hw
    simp [encode, decode, decodePlay, hNote]
  | off => simp [encode, decode, decodeOff]
  | next => decide
  | rdsr => decide

/-- Settles O4: each operand is the field the decoder read, and a field is the number at its place. -/
theorem operandsAreTheirFields : Obligations.OperandsAreTheirFields := by
  unfold Obligations.OperandsAreTheirFields
  intro cw i h
  obtain ⟨-, ⟨-, -, -, -, rfl⟩ | ⟨-, -, -, rfl⟩ | ⟨-, -, -, -, -, -, rfl⟩ | ⟨-, -, -, -, -, rfl⟩ |
    ⟨-, -, -, -, -, -, -, rfl⟩ | ⟨rfl, rfl⟩ | ⟨rfl, rfl⟩⟩ := decode_cases h
  · simp [fieldCh_toNat, fieldWave_toNat, fieldVol_toNat, fieldFval_toNat]
  · simp [fieldCh_toNat, fieldWave_toNat, fieldVol_toNat, fieldFval_toNat, fieldDur_toNat]
  · simp [fieldCh_toNat, fieldWave_toNat, fieldVol_toNat, fieldNote_toNat]
  · simp [fieldCh_toNat, fieldWave_toNat, fieldVol_toNat, fieldNote_toNat, fieldDur_toNat]
  · simp [fieldCh_toNat]
  · rfl
  · rfl

open Laws in
theorem encode_selects_row : ∀ i : Instr, EncodeSelectsRow.Statement i
  | .playf ch chz vol wave => EncodeSelectsRow.playf ch chz vol wave
  | .playfd ch chz dur vol wave => EncodeSelectsRow.playfd ch chz dur vol wave
  | .playn ch note vol wave => EncodeSelectsRow.playn ch note vol wave
  | .playnd ch note dur vol wave => EncodeSelectsRow.playnd ch note dur vol wave
  | .off ch => EncodeSelectsRow.off ch
  | .next => EncodeSelectsRow.next
  | .rdsr => EncodeSelectsRow.rdsr

/-- A word selects the row of the command it decodes to, since it is that command's encoding. -/
theorem selects_row_of_decode {cw : CommandWord} {i : Instr} (h : decode cw = .ok i) : i.row.selects cw = true := by
  rw [← encode_of_decode h]
  exact encode_selects_row i (wellFormed_of_decode h)

/-- A word that meets the mask, and the note bound, of a row passes every check of the decoder on the way to the row's command. -/
theorem decode_of_selects {cw : CommandWord} {r : OpcodeRow} (hr : r ∈ opcodeRows) (h : r.selects cw = true) :
    ∃ i, decode cw = .ok i ∧ i.row = r := by
  obtain ⟨hMask, hBound⟩ := (selects_iff r cw).1 h
  simp only [opcodeRows, List.mem_cons, List.not_mem_nil, or_false] at hr
  obtain rfl | rfl | rfl | rfl | rfl | rfl | rfl := hr
  · obtain ⟨hOp, hFsel, hDurEn, hRsv0, hRsv1, hDur⟩ := (mask_playf_iff cw).1 hMask
    simp [decode, decodePlay, hOp, hFsel, hDurEn, hRsv0, hRsv1, hDur, Instr.row]
  · obtain ⟨hOp, hFsel, hDurEn, hRsv0, hRsv1⟩ := (mask_playfd_iff cw).1 hMask
    simp [decode, decodePlay, hOp, hFsel, hDurEn, hRsv0, hRsv1, Instr.row]
  · obtain ⟨hOp, hFsel, hDurEn, hRsv0, hRsv1, hHigh, hDur⟩ := (mask_playn_iff cw).1 hMask
    simp [decode, decodePlay, hOp, hFsel, hDurEn, hRsv0, hRsv1, hHigh, hDur, hBound rfl, Instr.row]
  · obtain ⟨hOp, hFsel, hDurEn, hRsv0, hRsv1, hHigh⟩ := (mask_playnd_iff cw).1 hMask
    simp [decode, decodePlay, hOp, hFsel, hDurEn, hRsv0, hRsv1, hHigh, hBound rfl, Instr.row]
  · obtain ⟨hOp, hWave, hFsel, hDurEn, hRsv0, hVol, hRsv1, hFval, hDur⟩ := (mask_off_iff cw).1 hMask
    simp [decode, decodeOff, hOp, hWave, hFsel, hDurEn, hRsv0, hVol, hRsv1, hFval, hDur, Instr.row]
  · rw [(mask_next_iff cw).1 hMask]
    exact ⟨.next, by decide, rfl⟩
  · rw [(mask_rdsr_iff cw).1 hMask]
    exact ⟨.rdsr, by decide, rfl⟩

/-- Settles O6: a row's mask asks what the decoder asks, and two rows of one word are both the row of the command it decodes to. -/
theorem opcodeMapSelectsTheCommand : Obligations.OpcodeMapSelectsTheCommand := by
  unfold Obligations.OpcodeMapSelectsTheCommand
  refine ⟨fun cw r hr => ⟨decode_of_selects hr, ?_⟩, fun cw r r' hr hr' h h' => ?_⟩
  · rintro ⟨i, hDecode, rfl⟩
    exact selects_row_of_decode hDecode
  · obtain ⟨i, hDecode, rfl⟩ := decode_of_selects hr h
    obtain ⟨j, hDecode', rfl⟩ := decode_of_selects hr' h'
    rw [Except.ok.inj (hDecode.symm.trans hDecode')]

/-- Settles O1: the decoder evaluated on the words of V-ENC. -/
theorem specWordsDecode : Obligations.SpecWordsDecode := by
  unfold Obligations.SpecWordsDecode
  decide

end Sys2Proof

namespace Sys2Proof.Machine

open Sys2Proof.Safety

/-! ### The four PLAY encodings as one (R62 a, R90) -/

/-- The frequency `do_play` is given for a pitch: the number itself or the entry of the note table. -/
def Pitch.frequency : Pitch → Option Word
  | .freq chz => some chz
  | .note k => lutRead k

theorem exec_selectPlay_of_some {x : Pitch} {chz : Word} (h : x.frequency = some chz) (c : Channel) (d : Duration) (v : Byte)
    (w : Waveform) (s : State) : exec (selectPlay c x d v w) s = .next (doPlay c chz d v w s) := by
  cases x with
  | freq f => cases h; cases d <;> rfl
  | note k => rw [← playNote_of_some h]; cases d <;> rfl

theorem exec_selectPlay_of_none {x : Pitch} (h : x.frequency = none) (c : Channel) (d : Duration) (v : Byte) (w : Waveform)
    (s : State) : exec (selectPlay c x d v w) s = .next (raise .illegalCommand s) := by
  cases x with
  | freq f => cases h
  | note k => rw [← playNote_of_none h c d v w]; cases d <;> rfl

/-- The pitch of a well-formed PLAY has a frequency. -/
theorem frequency_of_wellFormed {c : Channel} {x : Pitch} {d : Duration} {v : Byte} {w : Waveform}
    (h : (selectPlay c x d v w).wellFormed = true) : ∃ chz, x.frequency = some chz := by
  cases x with
  | freq chz => exact ⟨chz, rfl⟩
  | note k =>
    have hNote : noteInTable k = true := by cases d <;> exact h
    exact lutRead_of_le ((noteInTable_iff k).1 hNote)

/-- Every command is a PLAY of a pitch for a duration, an OFF, a NEXT or an RDSR. -/
theorem instr_cases (i : Instr) :
    (∃ c x d v w, i = selectPlay c x d v w) ∨ (∃ c, i = .off c) ∨ i = .next ∨ i = .rdsr := by
  cases i with
  | playf c chz v w => exact .inl ⟨c, .freq chz, none, v, w, rfl⟩
  | playfd c chz d v w => exact .inl ⟨c, .freq chz, some d, v, w, rfl⟩
  | playn c k v w => exact .inl ⟨c, .note k, none, v, w, rfl⟩
  | playnd c k d v w => exact .inl ⟨c, .note k, some d, v, w, rfl⟩
  | off c => exact .inr (.inl ⟨c, rfl⟩)
  | next => exact .inr (.inr (.inl rfl))
  | rdsr => exact .inr (.inr (.inr rfl))

/-! ### What each PLAY leaves in its channel, and OFF (R90 to R95) -/

theorem played_playedOsc (r chz : Word) (d : Duration) (v : Byte) (w : Waveform) :
    Played r chz d v w (playedOsc r chz d v w) := by
  refine ⟨rfl, rfl, fun hRate => phaseStep_toNat hRate chz, ?untimed, ?timed, ?instant⟩
  case untimed => rintro rfl; exact ⟨rfl, rfl, rfl⟩
  case timed => rintro n rfl hn; exact ⟨if_neg hn, decide_eq_true hn, rfl⟩
  case instant => rintro rfl; exact ⟨rfl, rfl, rfl⟩

theorem changesOnlyChannel_writeOsc (c : Channel) (o : Oscillator) (s : State) :
    ChangesOnlyChannel c s (respond .ack 0 (writeOsc s c o)) :=
  ⟨fun _ hd => (readOsc_respond _ _ _ _).trans (readOsc_writeOsc_ne s o hd), rfl, rfl, rfl⟩

/-- A PLAY of a pitch that has a frequency starts it in its channel, changes nothing else, and is acknowledged. -/
theorem selectPlay_starts {x : Pitch} {chz : Word} (h : x.frequency = some chz) (c : Channel) (d : Duration) (v : Byte)
    (w : Waveform) (s : State) : ∃ t, exec (selectPlay c x d v w) s = .next t ∧ Played s.sr chz d v w (readOsc t c) ∧
      ChangesOnlyChannel c s t ∧ t.responses = s.responses ++ [⟨.ack, 0⟩] := by
  refine ⟨doPlay c chz d v w s, exec_selectPlay_of_some h c d v w s, ?_, changesOnlyChannel_writeOsc c _ s, rfl⟩
  rw [readOsc_doPlay_same]
  exact played_playedOsc s.sr chz d v w

/-- A PLAY of a note starts the table's frequency, or raises where the table has none. -/
theorem selectPlay_note_starts (c : Channel) (k : BitVec 7) (d : Duration) (v : Byte) (w : Waveform) (s : State) :
    (k.toNat ≤ 108 → ∃ chz t, lutRead k = some chz ∧ exec (selectPlay c (.note k) d v w) s = .next t ∧
      Played s.sr chz d v w (readOsc t c) ∧ ChangesOnlyChannel c s t ∧ t.responses = s.responses ++ [⟨.ack, 0⟩]) ∧
    (108 < k.toNat → ∃ t, exec (selectPlay c (.note k) d v w) s = .next t ∧ RaisedIllegal s t) := by
  constructor
  · intro hk
    obtain ⟨chz, hRead⟩ := lutRead_of_le hk
    obtain ⟨t, hStarts⟩ := selectPlay_starts (x := .note k) hRead c d v w s
    exact ⟨chz, t, hRead, hStarts⟩
  · intro hk
    exact ⟨_, exec_selectPlay_of_none (x := .note k) (lutRead_of_gt hk) c d v w s, raisedIllegal_raise _ s⟩

/-- Settles O20: PLAYF is the PLAY of a frequency without a duration. -/
theorem playfStartsAFrequency : Obligations.PlayfStartsAFrequency := by
  unfold Obligations.PlayfStartsAFrequency
  exact fun ch chz vol wave s => selectPlay_starts (x := .freq chz) rfl ch none vol wave s

/-- Settles O21: PLAYFD is the PLAY of a frequency with a duration. -/
theorem playfdStartsATimedFrequency : Obligations.PlayfdStartsATimedFrequency := by
  unfold Obligations.PlayfdStartsATimedFrequency
  exact fun ch chz dur vol wave s => selectPlay_starts (x := .freq chz) rfl ch (some dur) vol wave s

/-- Settles O22: PLAYN is the PLAY of a note without a duration. -/
theorem playnStartsANote : Obligations.PlaynStartsANote := by
  unfold Obligations.PlaynStartsANote
  exact fun ch note vol wave s => selectPlay_note_starts ch note none vol wave s

/-- Settles O23: PLAYND is the PLAY of a note with a duration. -/
theorem playndStartsATimedNote : Obligations.PlayndStartsATimedNote := by
  unfold Obligations.PlayndStartsATimedNote
  exact fun ch note dur vol wave s => selectPlay_note_starts ch note (some dur) vol wave s

/-- Settles O24: OFF writes the silenced record, and a record of volume 0 contributes 0. -/
theorem offSilencesItsChannel : Obligations.OffSilencesItsChannel := by
  unfold Obligations.OffSilencesItsChannel
  intro c s
  refine ⟨_, exec_off c s, ?_⟩
  rw [readOsc_respond, readOsc_writeOsc_same]
  exact ⟨rfl, rfl, rfl, rfl, rfl, rfl, changesOnlyChannel_writeOsc c _ s, rfl,
    fun rom => contribution_of_vol_eq_zero rom rfl⟩

/-- Settles O25: RDSR responds with `SR` and writes nothing. -/
theorem rdsrAnswersTheSampleRate : Obligations.RdsrAnswersTheSampleRate := by
  unfold Obligations.RdsrAnswersTheSampleRate
  exact fun s => ⟨_, exec_rdsr s, rfl, rfl, rfl, rfl, rfl⟩

/-! ### What a command's effect depends on -/

/-- The effect of a command is a function of the oscillators and the rate: they alone decide the new oscillators, the one response,
and whether `FAULT` is set; and only NEXT answers by the oscillators. -/
theorem exec_effect (i : Instr) (r : Word) : ∃ (g : OscFile → OscFile) (a : OscFile → Response) (e : Bool),
    (i ≠ .next → ∀ f f', a f = a f') ∧
    ∀ f b es past, exec i ⟨f, r, b, es, past⟩ = .next ⟨g f, r, e || b, es, past ++ [a f]⟩ := by
  obtain ⟨c, x, d, v, w, rfl⟩ | ⟨c, rfl⟩ | rfl | rfl := instr_cases i
  · cases hPitch : x.frequency with
    | some chz =>
      simp only [exec_selectPlay_of_some hPitch]
      exact ⟨fun f => f.write c (playedOsc r chz d v w), fun _ => ⟨.ack, 0⟩, false, fun _ _ _ => rfl, fun _ _ _ _ => rfl⟩
    | none =>
      simp only [exec_selectPlay_of_none hPitch]
      exact ⟨id, fun _ => ⟨.err, 0⟩, true, fun _ _ _ => rfl, fun _ _ _ _ => rfl⟩
  · exact ⟨fun f => f.write c (silencedOsc (f.read c)), fun _ => ⟨.ack, 0⟩, false, fun _ _ _ => rfl, fun _ _ _ _ => rfl⟩
  · exact ⟨OscFile.map steppedOsc, fun f => ⟨.sample, sampleData (nextSample Config.wt f)⟩, false,
      fun h => absurd rfl h, fun _ _ _ _ => rfl⟩
  · exact ⟨id, fun _ => ⟨.rate, r⟩, false, fun _ _ _ => rfl, fun _ _ _ _ => rfl⟩

theorem exec_sr {i : Instr} {s t : State} (h : exec i s = .next t) : t.sr = s.sr := by
  obtain ⟨g, a, e, -, hExec⟩ := exec_effect i s.sr
  cases h.symm.trans (hExec s.osc s.fault s.inputs s.responses)
  rfl

/-- What the host receives for a command other than NEXT does not depend on the oscillators. -/
theorem exec_responses_ignore_osc {i : Instr} {s t : State} (hNext : i ≠ .next) (h : exec i s = .next t) (f : OscFile) :
    ∃ u, exec i { s with osc := f } = .next u ∧ u.responses = t.responses := by
  obtain ⟨g, a, e, ha, hExec⟩ := exec_effect i s.sr
  cases h.symm.trans (hExec s.osc s.fault s.inputs s.responses)
  exact ⟨_, hExec f s.fault s.inputs s.responses, by rw [ha hNext f s.osc]⟩

/-- The effect of an event is decided by the oscillators and `SR`: from any state that has them, it goes on to the same oscillators
and `SR`, and appends the same responses. -/
theorem accept_effect {e : HostInput} {s t : State} (h : accept e s = .next t) : ∃ new : List Response,
    t.responses = s.responses ++ new ∧ ∀ u : State, u.osc = s.osc → u.sr = s.sr →
      ∃ v, accept e u = .next v ∧ v.osc = t.osc ∧ v.sr = t.sr ∧ v.responses = u.responses ++ new := by
  obtain ⟨cw, i, rfl, hDecode, hExec⟩ | ⟨cw, r, rfl, hDecode, rfl⟩ | ⟨rate, rfl, hRate, rfl⟩ := accept_cases h
  · obtain ⟨g, a, b, -, hEffect⟩ := exec_effect i s.sr
    cases hExec.symm.trans (hEffect s.osc s.fault s.inputs s.responses)
    refine ⟨[a s.osc], rfl, ?_⟩
    rintro ⟨_, _, fault, inputs, past⟩ rfl rfl
    exact ⟨_, (acceptWord_of_ok hDecode _).trans (hEffect s.osc fault inputs past), rfl, rfl, rfl⟩
  · exact ⟨[⟨.err, 0⟩], rfl, fun u hOsc hSr => ⟨_, acceptWord_of_error hDecode u, hOsc, hSr, rfl⟩⟩
  · exact ⟨[], (List.append_nil _).symm, fun u _ _ => ⟨_, acceptReset_of_ne hRate u, rfl, rfl, (List.append_nil _).symm⟩⟩

/-- Settles O9: `FAULT` is not among what decides the effect of an event. -/
theorem faultFlagIsNeverRead : Obligations.FaultFlagIsNeverRead := by
  unfold Obligations.FaultFlagIsNeverRead
  intro s t b hStep
  obtain ⟨hIdle, rfl⟩ | ⟨e, rest, hInputs, hAccept⟩ := step_cases hStep
  · exact ⟨_, step_idle (s := { t with fault := b }) hIdle, rfl, rfl, rfl, rfl⟩
  · obtain ⟨new, hNew, hEffect⟩ := accept_effect hAccept
    obtain ⟨u, hFlipped, hOsc, hSr, hResponses⟩ := hEffect { s with inputs := rest, fault := b } rfl rfl
    refine ⟨u, (step_cons (s := { s with fault := b }) hInputs).trans hFlipped, hOsc, hSr, ?_, hResponses.trans hNew.symm⟩
    exact (accept_inputs hFlipped).trans (accept_inputs hAccept).symm

/-! ### The sample stream (R107) -/

/-- Two states with the same oscillators and rate, which have answered the same samples. -/
def SameStream (s t : State) : Prop :=
  s.osc = t.osc ∧ s.sr = t.sr ∧ sampleStream s.responses = sampleStream t.responses

theorem sampleStream_append (rs rs' : List Response) : sampleStream (rs ++ rs') = sampleStream rs ++ sampleStream rs' :=
  List.filterMap_append

theorem accept_sameStream {e : HostInput} {s t u : State} (h : accept e s = .next t) (hSame : SameStream s u) :
    ∃ v, accept e u = .next v ∧ SameStream t v := by
  obtain ⟨hOsc, hSr, hStream⟩ := hSame
  obtain ⟨new, hNew, hEffect⟩ := accept_effect h
  obtain ⟨v, hAccept, hOsc', hSr', hResponses⟩ := hEffect u hOsc.symm hSr.symm
  refine ⟨v, hAccept, hOsc'.symm, hSr'.symm, ?_⟩
  rw [hNew, hResponses, sampleStream_append, sampleStream_append, hStream]

/-- An illegal word or an RDSR answers no sample and leaves the oscillators and the rate. -/
theorem sameStream_of_not_shapesSound {e : HostInput} {s t : State} (h : accept e s = .next t) (he : shapesSound e = false) :
    SameStream t s := by
  obtain ⟨cw, i, rfl, hDecode, hExec⟩ | ⟨cw, r, rfl, hDecode, rfl⟩ | ⟨rate, rfl, -, -⟩ := accept_cases h
  · have hRdsr : i = .rdsr := by simpa [shapesSound, isReset, carries, hDecode] using he
    subst hRdsr
    cases hExec
    exact ⟨rfl, rfl, (sampleStream_append _ _).trans (List.append_nil _)⟩
  · exact ⟨rfl, rfl, (sampleStream_append _ _).trans (List.append_nil _)⟩
  · cases he

theorem runAll_filter_sameStream {es : List HostInput} {s t u : State} (h : runAll es s = .next t) (hSame : SameStream s u) :
    ∃ v, runAll (es.filter shapesSound) u = .next v ∧ SameStream t v := by
  induction es generalizing s u with
  | nil => cases h; exact ⟨_, runAll_nil u, hSame⟩
  | cons e es ih =>
    obtain ⟨s', hAccept, hRun⟩ := runAll_cons_next h
    cases he : shapesSound e with
    | true =>
      obtain ⟨u', hAccept', hSame'⟩ := accept_sameStream (u := { u with inputs := es.filter shapesSound }) hAccept hSame
      rw [List.filter_cons_of_pos he, runAll_cons, hAccept']
      exact ih hRun hSame'
    | false =>
      obtain ⟨hOsc, hSr, hStream⟩ := sameStream_of_not_shapesSound hAccept he
      obtain ⟨hOsc', hSr', hStream'⟩ := hSame
      rw [List.filter_cons_of_neg (by simp [he])]
      exact ih hRun ⟨hOsc.trans hOsc', hSr.trans hSr', hStream.trans hStream'⟩

/-- Settles O48: the runs with and without the events that shape no sound stay in step, by induction on the events. -/
theorem sampleStreamIgnoresIllegalAndRdsr : Obligations.SampleStreamIgnoresIllegalAndRdsr := by
  unfold Obligations.SampleStreamIgnoresIllegalAndRdsr
  intro es s t h
  obtain ⟨u, hRun, hOsc, hSr, hStream⟩ := runAll_filter_sameStream h (u := s) ⟨rfl, rfl, rfl⟩
  exact ⟨u, hRun, hStream.symm, hOsc.symm, hSr.symm⟩

/-! ### One oscillator over many ticks (R81 to R84, R87, R89) -/

/-- The volume after a tick is the volume before it, or 0 if the timer has expired. -/
theorem steppedOsc_vol_cases (o : Oscillator) : (steppedOsc o).vol = o.vol ∨ (steppedOsc o).vol = 0 := by
  rw [steppedOsc_vol]
  cases hActive : o.durActive with
  | false => exact .inl (by rw [timerStep_idle hActive])
  | true =>
    by_cases hOne : o.durCount = 1
    · exact .inr (by rw [timerStep_expire hActive hOne])
    · exact .inl (by rw [timerStep_count hActive hOne])

theorem steppedOsc_silent_vol {o : Oscillator} (h : o.vol = 0) : (steppedOsc o).vol = 0 :=
  (steppedOsc_vol_cases o).elim (·.trans h) id

theorem steppedOsc_of_idle {o : Oscillator} (h : o.durActive = false) : steppedOsc o = { o with phase := advancedPhase o } := by
  rw [steppedOsc, timerStep_idle h]

theorem phase_advance (p d : Half) (k : Nat) : p + BitVec.ofNat 16 k * d + d = p + BitVec.ofNat 16 (k + 1) * d := by
  rw [BitVec.ofNat_add, BitVec.add_mul, BitVec.one_mul, BitVec.add_assoc]

/-- Without a running timer only the phase moves, by the step at each tick. -/
theorem steppedOsc_iterate_idle {o : Oscillator} (h : o.durActive = false) (k : Nat) :
    steppedOsc^[k] o = { o with phase := o.phase + BitVec.ofNat 16 k * o.step } := by
  induction k with
  | zero => simp
  | succ k ih =>
    rw [Function.iterate_succ_apply', ih, steppedOsc_of_idle (by exact h), advancedPhase, phase_advance]

/-- The tick after `k` others reads the table at the phase of `k + 1` steps. -/
theorem contribution_iterate_idle (rom : Rom) {o : Oscillator} (h : o.durActive = false) (k : Nat) :
    contribution rom (steppedOsc^[k] o) =
      (romRead rom o.wave (tableIndex (o.phase + BitVec.ofNat 16 (k + 1) * o.step))).toInt * o.vol.toNat := by
  rw [steppedOsc_iterate_idle h, contribution, advancedPhase, phase_advance]

/-- A running timer that is not used up has gone down by one at each tick, and the volume is still there. -/
theorem steppedOsc_iterate_running {o : Oscillator} (h : o.durActive = true) {k : Nat} (hk : k < o.durCount.toNat) :
    (steppedOsc^[k] o).vol = o.vol ∧ (steppedOsc^[k] o).durActive = true ∧
      (steppedOsc^[k] o).durCount.toNat = o.durCount.toNat - k := by
  induction k with
  | zero => exact ⟨rfl, h, rfl⟩
  | succ k ih =>
    obtain ⟨hVol, hActive, hCount⟩ := ih (by omega)
    have hOne : (steppedOsc^[k] o).durCount ≠ 1 := by
      intro hOne
      rw [hOne, show (1 : Word).toNat = 1 from rfl] at hCount
      omega
    have hMax := o.durCount.isLt
    rw [Function.iterate_succ_apply', steppedOsc_durCount, timerStep_durCount_toNat hActive hOne, hCount, steppedOsc_vol,
      steppedOsc_durActive, timerStep_count hActive hOne]
    exact ⟨hVol, hActive, by omega⟩

/-- A channel that is silent with its timer clear. -/
def Oscillator.Ended (o : Oscillator) : Prop := o.vol = 0 ∧ o.durActive = false ∧ o.durCount = 0

theorem ended_iterate {o : Oscillator} (h : o.Ended) (k : Nat) : (steppedOsc^[k] o).Ended := by
  obtain ⟨hVol, hIdle, hCount⟩ := h
  rw [steppedOsc_iterate_idle hIdle]
  exact ⟨hVol, hIdle, hCount⟩

/-- The tick that uses up the timer ends the note, and an ended note stays so. -/
theorem ended_iterate_of_running {o : Oscillator} (h : o.durActive = true) (h0 : o.durCount ≠ 0) {k : Nat}
    (hk : o.durCount.toNat ≤ k) : (steppedOsc^[k] o).Ended := by
  obtain ⟨n, hn⟩ : ∃ n, o.durCount.toNat = n + 1 := Nat.exists_eq_succ_of_ne_zero (by bv_omega)
  obtain ⟨-, hActive, hCount⟩ := steppedOsc_iterate_running h (k := n) (by omega)
  have hLast : (steppedOsc^[n] o).durCount = 1 := BitVec.eq_of_toNat_eq (hCount.trans (by rw [hn]; simp))
  have hEnd : (steppedOsc (steppedOsc^[n] o)).Ended := by
    simp [Oscillator.Ended, timerStep_expire hActive hLast]
  rw [← Function.iterate_succ_apply' steppedOsc] at hEnd
  rw [show k = (k - (n + 1)) + (n + 1) by omega, Function.iterate_add_apply]
  exact ended_iterate hEnd _

theorem phaseStep_rest {rate : Word} (h : rate ≠ 0) : phaseStep rate 0 = 0 := by
  apply BitVec.eq_of_toNat_eq
  rw [phaseStep_toNat h]
  simp

/-- Settles O30: the step of frequency 0 is 0, so no tick moves the phase from 0. -/
theorem restHoldsAConstantLevel : Obligations.RestHoldsAConstantLevel := by
  unfold Obligations.RestHoldsAConstantLevel
  intro rom c x v w s k hRate hRest
  have hPitch : x.frequency = some 0 := by
    obtain rfl | rfl := hRest
    · rfl
    · decide
  refine ⟨_, exec_selectPlay_of_some hPitch c none v w s, ?_⟩
  rw [readOsc_doPlay_same, contribution_iterate_idle rom rfl, steppedOsc_iterate_idle rfl, playedOsc_step, phaseStep_rest hRate]
  simp only [mul_zero, add_zero, playedOsc_phase, show tableIndex 0 = 0 by decide]
  exact ⟨trivial, rfl, rfl⟩

/-- Settles O32: after `j` ticks the phase is `j * step` modulo 65536, which is 0 after `K` of them. -/
theorem periodReadsEvenlySpacedPoints : Obligations.PeriodReadsEvenlySpacedPoints := by
  unfold Obligations.PeriodReadsEvenlySpacedPoints
  intro rom o K hPhase hIdle hPeriod
  have hTicks (j : Nat) : (o.phase + BitVec.ofNat 16 j * o.step).toNat = j * o.step.toNat % 65536 := by
    rw [hPhase, zero_add, BitVec.toNat_mul, BitVec.toNat_ofNat, Nat.mod_mul_mod]
  constructor
  · have hReturn : o.phase + BitVec.ofNat 16 K * o.step = o.phase := by
      apply BitVec.eq_of_toNat_eq
      rw [hTicks, mul_comm, hPeriod, hPhase]
      rfl
    rw [steppedOsc_iterate_idle hIdle, hReturn]
  · intro j hFirst _
    have hIndex : tableIndex (o.phase + BitVec.ofNat 16 j * o.step) = BitVec.ofNat 8 (j * o.step.toNat % 65536 / 256) := by
      rw [← hTicks, ← tableIndex_toNat, BitVec.ofNat_toNat, BitVec.setWidth_eq]
    rw [contribution_iterate_idle rom hIdle, Nat.sub_add_cancel hFirst, hIndex]

/-! ### How long a note sounds (R88) -/

/-- An event that is no reset and does not address a channel changes it by a tick or not at all. -/
theorem readOsc_accept_of_not_addresses {e : HostInput} {s t : State} {c : Channel} (h : accept e s = .next t)
    (hReset : isReset e = false) (hOther : addresses c e = false) :
    readOsc t c = steppedOsc^[if isTick e then 1 else 0] (readOsc s c) := by
  obtain ⟨hTick, hOsc⟩ | ⟨hTick, hOsc⟩ | ⟨-, -, hOn⟩ | ⟨-, hOn, -⟩ | ⟨hOn, -⟩ := accept_channel_cases h c
  · simpa [hTick] using hOsc
  · simpa [hTick] using hOsc
  · simp [hOther] at hOn
  · simp [hOther] at hOn
  · simp [hReset] at hOn

/-- Over such events a channel takes one tick for each NEXT. -/
theorem readOsc_runAll_of_not_addresses {c : Channel} {es : List HostInput} {s t : State}
    (hEvents : ∀ e ∈ es, isReset e = false ∧ addresses c e = false) (h : runAll es s = .next t) :
    readOsc t c = steppedOsc^[es.countP isTick] (readOsc s c) := by
  induction es generalizing s with
  | nil => cases h; rfl
  | cons e es ih =>
    obtain ⟨u, hAccept, hRun⟩ := runAll_cons_next h
    obtain ⟨⟨hReset, hOther⟩, hRest⟩ := List.forall_mem_cons.1 hEvents
    rw [ih hRest hRun, readOsc_accept_of_not_addresses hAccept hReset hOther, readOsc_inputs, ← Function.iterate_add_apply,
      List.countP_cons]

/-- Settles O31: the channel has the record of the PLAY after one tick for each NEXT, which the timer counts. -/
theorem noteSoundsForItsDuration : Obligations.NoteSoundsForItsDuration := by
  unfold Obligations.NoteSoundsForItsDuration
  intro c x d v w s es hWell hEvents
  obtain ⟨chz, hPitch⟩ := frequency_of_wellFormed hWell
  obtain ⟨u, hRun⟩ := runAll_goesOn (fun e he => (hEvents e he).1) (doPlay c chz d v w s)
  refine ⟨_, u, exec_selectPlay_of_some hPitch c d v w s, hRun, ?_⟩
  rw [readOsc_runAll_of_not_addresses hEvents hRun, readOsc_doPlay_same]
  obtain ⟨-, -, -, hUntimed, hTimed, hInstant⟩ := played_playedOsc s.sr chz d v w
  refine ⟨?untimed, ?sounding, ?ended⟩
  case untimed =>
    intro hd
    obtain ⟨hVol, hIdle, -⟩ := hUntimed hd
    rw [steppedOsc_iterate_idle hIdle]
    exact hVol
  case sounding =>
    intro n hd hLeft
    obtain ⟨hVol, hActive, hCount⟩ := hTimed n hd (by rintro rfl; simp at hLeft)
    rw [← hCount] at hLeft ⊢
    obtain ⟨hVol', hActive', hCount'⟩ := steppedOsc_iterate_running hActive hLeft
    exact ⟨hVol'.trans hVol, hActive', hCount'⟩
  case ended =>
    intro n hd hUsed
    by_cases h0 : n = 0
    · exact ended_iterate (hInstant (h0 ▸ hd)) _
    · obtain ⟨-, hActive, hCount⟩ := hTimed n hd h0
      rw [← hCount] at hUsed h0
      exact ended_iterate_of_running hActive h0 hUsed

/-! ### One step (R11, R122, R130, R131) -/

/-- Settles O7: a step on a legal word executes what it decodes to, and `withFetchWord` presents the word of its number. -/
theorem stepRunsTheDecodedCommand : Obligations.StepRunsTheDecodedCommand := by
  unfold Obligations.StepRunsTheDecodedCommand
  refine ⟨fun _ _ _ _ => step_of_decode_ok, fun s nbits w i h => ?_⟩
  have hDecode : decode (tableWord nbits w) = .ok i := by
    unfold decodeTableWord at h
    cases hd : decode (tableWord nbits w) with
    | ok j => rw [hd] at h; cases h; rfl
    | error e => rw [hd] at h; cases h
  exact step_of_decode_ok (s := s.withFetchWord nbits w) rfl hDecode

theorem accept_zeroRate (s : State) : accept (.reset 0) s = .refused .zeroSampleRate := rfl

/-- Every event but a reset with rate 0 is accepted in every state. -/
theorem accept_goesOn_of_ne {e : HostInput} (he : e ≠ .reset 0) (s : State) : ∃ t, accept e s = .next t := by
  cases e with
  | command cw => exact accept_goesOn rfl s
  | reset rate => exact ⟨_, acceptReset_of_ne (fun h => he (congrArg _ h)) s⟩

/-- Settles O10: a step is idle, or accepts an event other than a reset with rate 0, or refuses that reset. -/
theorem onlyAZeroRateResetStops : Obligations.OnlyAZeroRateResetStops := by
  unfold Obligations.OnlyAZeroRateResetStops
  have hRefused (s : State) (rest : List HostInput) (h : s.inputs = .reset 0 :: rest) : step s = .refused .zeroSampleRate :=
    step_cons h
  refine ⟨fun s => ?_, hRefused, fun s => step_idle⟩
  cases hInputs : s.inputs with
  | nil => exact .inl ⟨s, step_idle hInputs⟩
  | cons e rest =>
    by_cases he : e = .reset 0
    · subst he
      exact .inr ⟨⟨rest, rfl⟩, hRefused s rest hInputs⟩
    · rw [step_cons hInputs]
      exact .inl (accept_goesOn_of_ne he _)

theorem accept_sr {e : HostInput} {s t : State} (h : accept e s = .next t) :
    t.sr = s.sr ∨ ∃ rate, e = .reset rate ∧ rate ≠ 0 ∧ t.sr = rate := by
  obtain ⟨_, _, -, -, hExec⟩ | ⟨_, _, -, -, rfl⟩ | ⟨rate, rfl, hRate, rfl⟩ := accept_cases h
  · exact .inl (exec_sr hExec)
  · exact .inl (raise_sr _ _)
  · exact .inr ⟨rate, rfl, hRate, rfl⟩

theorem step_keeps_sr {s t : State} (h : step s = .next t) : t.sr = s.sr ∨ ∃ rate rest, s.inputs = .reset rate :: rest := by
  obtain ⟨-, rfl⟩ | ⟨e, rest, hInputs, hAccept⟩ := step_cases h
  · exact .inl rfl
  · obtain hSr | ⟨rate, rfl, -, -⟩ := accept_sr hAccept
    · exact .inl hSr
    · exact .inr ⟨rate, rest, hInputs⟩

/-- Settles O11: the reset event writes every field, and no other step writes `SR` or clears `FAULT`. -/
theorem resetEventSetsTheWholeState : Obligations.ResetEventSetsTheWholeState := by
  unfold Obligations.ResetEventSetsTheWholeState
  refine ⟨fun s rate rest hInputs hRate => ?reset, fun s t hStep hChange => ?only⟩
  case reset =>
    refine ⟨_, (step_cons hInputs).trans (acceptReset_of_ne hRate _), rfl, rfl, rfl, rfl, fun c => ?_⟩
    rw [readOsc_resetEvent]
    exact ⟨rfl, rfl, rfl, rfl, rfl, rfl⟩
  case only =>
    obtain hSr | ⟨hFault, hCleared⟩ := hChange
    · exact (step_keeps_sr hStep).resolve_left hSr
    · exact (step_keeps_fault hFault hStep).resolve_left (by simp [hCleared])

/-- Settles O12: the fields of the reset state; the rate is 1 more than a number below `2 ^ 32 - 1`. -/
theorem resetStateHoldsTheSpecsValues : Obligations.ResetStateHoldsTheSpecsValues := by
  unfold Obligations.ResetStateHoldsTheSpecsValues
  refine ⟨?rate, rfl, rfl, rfl, rfl, fun c => ?silent⟩
  case rate =>
    have hLt := Config.sampleRateLessOne.isLt
    intro hZero
    have hNat : (Config.sampleRateLessOne.val + 1) % 2 ^ 32 = 0 := congrArg BitVec.toNat hZero
    omega
  case silent =>
    rw [State.reset, readOsc_afterReset]
    exact ⟨rfl, rfl, rfl, rfl, rfl, rfl⟩

/-! ### Runs (R39) -/

theorem foldl_thenAccept_refused (es : List HostInput) (r : Refusal) : es.foldl thenAccept (.refused r) = .refused r := by
  induction es with
  | nil => rfl
  | cons e es ih => exact ih

/-- Settles O13: a run and the fold accept the same events one by one, and both stay stopped at a refused reset. -/
theorem runIsTheFoldOfTheCommandRules : Obligations.RunIsTheFoldOfTheCommandRules := by
  unfold Obligations.RunIsTheFoldOfTheCommandRules
  intro es s
  induction es generalizing s with
  | nil => rfl
  | cons e es ih =>
    rw [runAll_cons, List.foldl_cons, thenAccept]
    by_cases he : e = .reset 0
    · subst he
      exact (foldl_thenAccept_refused es .zeroSampleRate).symm
    · obtain ⟨t, hAccept⟩ := accept_goesOn_of_ne he { s with inputs := es }
      rw [hAccept, accept_withInputs hAccept []]
      exact ih t

/-- What holds at the start of a run, and is kept by each of its events whatever is presented after it, holds at the end. -/
theorem runAll_keeps {P : State → Prop} {es : List HostInput} {s t : State} (hInputs : ∀ u l, P u → P { u with inputs := l })
    (hKeeps : ∀ e ∈ es, ∀ u v, accept e u = .next v → P u → P v) (h : runAll es s = .next t) (hStart : P s) : P t := by
  induction es generalizing s with
  | nil => cases h; exact hInputs s [] hStart
  | cons e es ih =>
    obtain ⟨u, hAccept, hRun⟩ := runAll_cons_next h
    obtain ⟨hFirst, hRest⟩ := List.forall_mem_cons.1 hKeeps
    exact ih hRest hRun (hFirst _ _ hAccept (hInputs s es hStart))

/-! ### Silence (R95, R132) -/

/-- Only a PLAY on a channel gives it a volume. -/
theorem accept_keeps_silence {e : HostInput} {s t : State} {c : Channel} (h : accept e s = .next t)
    (hPlay : carries (playsOn c) e = false) (hSilent : (readOsc s c).vol = 0) : (readOsc t c).vol = 0 := by
  obtain ⟨-, hOsc⟩ | ⟨-, hOsc⟩ | ⟨-, hOn, -⟩ | ⟨-, -, hOsc⟩ | ⟨-, hOsc⟩ := accept_channel_cases h c
  · rw [hOsc]; exact steppedOsc_silent_vol hSilent
  · rw [hOsc]; exact hSilent
  · simp [hPlay] at hOn
  · rw [hOsc]; rfl
  · rw [hOsc]; rfl

/-- Settles O33: silence is kept by every event that is not a PLAY on the channel, and a silent channel contributes 0. -/
theorem silenceLastsUntilPlay : Obligations.SilenceLastsUntilPlay := by
  unfold Obligations.SilenceLastsUntilPlay
  intro c s t es hSilent hEvents hRun
  have hEnd : (readOsc t c).vol = 0 :=
    runAll_keeps (P := fun u => (readOsc u c).vol = 0) (fun _ _ h => h)
      (fun e he u v hAccept => accept_keeps_silence hAccept (hEvents e he)) hRun hSilent
  exact ⟨hEnd, fun rom => contribution_of_vol_eq_zero rom hEnd⟩

/-- A channel as reset leaves it is left so by every event but a PLAY on it: its step is 0, so a tick does not move its phase. -/
theorem accept_keeps_reset_osc {e : HostInput} {s t : State} {c : Channel} (h : accept e s = .next t)
    (hPlay : carries (playsOn c) e = false) (hReset : readOsc s c = .silent) : readOsc t c = .silent := by
  obtain ⟨-, hOsc⟩ | ⟨-, hOsc⟩ | ⟨-, hOn, -⟩ | ⟨-, -, hOsc⟩ | ⟨-, hOsc⟩ := accept_channel_cases h c
  · rw [hOsc, hReset]; rfl
  · rw [hOsc, hReset]
  · simp [hPlay] at hOn
  · rw [hOsc, hReset]; rfl
  · exact hOsc

/-- Settles O41: without a PLAY every channel stays as reset left it; a tick then answers the sample of silence and keeps it so. -/
theorem silentUntilTheFirstPlay : Obligations.SilentUntilTheFirstPlay := by
  unfold Obligations.SilentUntilTheFirstPlay
  intro rate es hEvents
  obtain ⟨t, hRun⟩ := runAll_goesOn (fun e he => (hEvents e he).1) (State.afterReset rate [] [])
  have hReset (c : Channel) : readOsc t c = .silent :=
    runAll_keeps (P := fun u => readOsc u c = .silent) (fun _ _ h => h)
      (fun e he u v hAccept => accept_keeps_reset_osc hAccept ((hEvents e he).2 c)) hRun (readOsc_afterReset _ _ _ c)
  refine ⟨t, _, hRun, exec_nextTick t, ?answer, OscFile.ext_read fun c => ?osc, rfl, rfl⟩
  case answer =>
    rw [tickWith_responses, nextSample_of_silent Config.wt fun c => by rw [← readOsc_def, hReset]; rfl]
    rfl
  case osc =>
    rw [← readOsc_def, ← readOsc_def, readOsc_tickWith, hReset]
    rfl

/-! ### The invariant (R16, R19) -/

theorem inv_iff (s : State) : Inv s ↔ (∀ c, TimerOk (readOsc s c)) ∧ s.sr ≠ 0 := by
  refine ⟨fun ⟨h0, h1, h2, h3, hSr⟩ => ⟨fun c => ?_, hSr⟩, fun ⟨h, hSr⟩ => ⟨h .ch0, h .ch1, h .ch2, h .ch3, hSr⟩⟩
  cases c <;> assumption

theorem timerOk_steppedOsc {o : Oscillator} (h : TimerOk o) : TimerOk (steppedOsc o) := by
  rw [TimerOk, steppedOsc_durActive, steppedOsc_durCount]
  cases hActive : o.durActive with
  | false => rw [timerStep_idle hActive]; exact h
  | true =>
    by_cases hOne : o.durCount = 1
    · simp [timerStep_expire hActive hOne]
    · have hLeft : o.durCount - 1 ≠ 0 := by bv_omega
      rw [timerStep_count hActive hOne]
      exact iff_of_true hActive hLeft

theorem timerOk_playedOsc (r chz : Word) (d : Duration) (v : Byte) (w : Waveform) : TimerOk (playedOsc r chz d v w) := by
  cases d <;> simp [TimerOk, playedActive, playedCount]

theorem accept_keeps_timerOk {e : HostInput} {s t : State} (h : accept e s = .next t) {c : Channel}
    (hTimer : TimerOk (readOsc s c)) : TimerOk (readOsc t c) := by
  obtain ⟨_, _, -, -, hExec⟩ | ⟨_, _, -, -, rfl⟩ | ⟨_, -, -, rfl⟩ := accept_cases h
  · obtain ⟨-, hOsc⟩ | ⟨-, hOsc⟩ | ⟨-, -, -, _, _, _, _, hOsc⟩ | ⟨-, hOsc⟩ := exec_channel_cases hExec c
    · rw [hOsc]; exact timerOk_steppedOsc hTimer
    · rw [hOsc]; exact hTimer
    · rw [hOsc]; exact timerOk_playedOsc ..
    · rw [hOsc]; simp [TimerOk]
  · rw [readOsc_raise]; exact hTimer
  · rw [readOsc_resetEvent]; decide

/-- Settles O42: what an event does to one channel keeps its timer in one of its forms, and only a legal reset writes `SR`. -/
theorem stepKeepsTimersAndRateLegal : Obligations.StepKeepsTimersAndRateLegal := by
  unfold Obligations.StepKeepsTimersAndRateLegal
  intro s t hInv hStep
  obtain ⟨-, rfl⟩ | ⟨e, rest, -, hAccept⟩ := step_cases hStep
  · exact hInv
  · obtain ⟨hTimers, hRate⟩ := (inv_iff s).1 hInv
    refine (inv_iff t).2 ⟨fun c => accept_keeps_timerOk hAccept (hTimers c), ?_⟩
    obtain hSr | ⟨rate, -, hLegal, hSr⟩ := accept_sr hAccept
    · rw [hSr]; exact hRate
    · rw [hSr]; exact hLegal

/-- Settles O43: reset leaves every timer clear and the rate legal. -/
theorem resetMeetsTheInvariant : Obligations.ResetMeetsTheInvariant := by
  unfold Obligations.ResetMeetsTheInvariant
  obtain ⟨hRate, -⟩ := resetStateHoldsTheSpecsValues
  refine (inv_iff _).2 ⟨fun c => ?_, hRate⟩
  rw [State.reset, readOsc_afterReset]
  decide

/-! ### What no command does, and commands between ticks (R97, R137) -/

theorem channelAddressed_of_playsOn {c : Channel} {i : Instr} (h : playsOn c i = true) : channelAddressed i = some c := by
  cases i with
  | playf | playfd | playn | playnd => exact congrArg some (of_decide_eq_true h)
  | off | next | rdsr => cases h

/-- Where a step, a waveform or a non-zero volume has changed, a PLAY on the channel has started it. -/
theorem playsOn_of_changed {i : Instr} {s t : State} (h : exec i s = .next t) {c : Channel}
    (hChange : (readOsc t c).step ≠ (readOsc s c).step ∨ (readOsc t c).wave ≠ (readOsc s c).wave ∨
      ((readOsc t c).vol ≠ (readOsc s c).vol ∧ (readOsc t c).vol ≠ 0)) :
    playsOn c i = true ∧ (readOsc t c).phase = 0 := by
  obtain ⟨-, hOsc⟩ | ⟨-, hOsc⟩ | ⟨-, hOn, -, _, _, _, _, hOsc⟩ | ⟨-, hOsc⟩ := exec_channel_cases h c
  · rw [hOsc, steppedOsc_step, steppedOsc_wave] at hChange
    obtain hVol | hVol := steppedOsc_vol_cases (readOsc s c)
    · simp only [hVol, ne_eq, not_true, false_and, or_self] at hChange
    · simp only [hVol, ne_eq, not_true, and_false, or_self] at hChange
  · simp [hOsc] at hChange
  · exact ⟨hOn, by rw [hOsc]; rfl⟩
  · simp [hOsc] at hChange

/-- A command other than NEXT leaves every channel it does not address. -/
theorem readOsc_of_not_addressed {i : Instr} {s t : State} (h : exec i s = .next t) (hNext : i ≠ .next) {c : Channel}
    (hOther : channelAddressed i ≠ some c) : readOsc t c = readOsc s c := by
  obtain ⟨hi, -⟩ | ⟨-, hOsc⟩ | ⟨-, -, hc, -⟩ | ⟨rfl, -⟩ := exec_channel_cases h c
  · exact absurd hi hNext
  · exact hOsc
  · exact absurd hc hOther
  · exact absurd rfl hOther

/-- Settles O45: the cases of what a command does to one channel, and the effect of a command on the rest of the state. -/
theorem whatNoCommandDoes : Obligations.WhatNoCommandDoes := by
  unfold Obligations.WhatNoCommandDoes
  exact fun i s t h => ⟨exec_sr h, exec_keeps_fault h, fun hNext _ => readOsc_of_not_addressed h hNext,
    fun hNext => exec_responses_ignore_osc hNext h, fun _ => playsOn_of_changed h⟩

/-- The order of two acknowledged writes to different channels leaves no trace. -/
theorem writeOsc_ack_comm (s : State) {c d : Channel} (o p : Oscillator) (h : c ≠ d) :
    respond .ack 0 (writeOsc (respond .ack 0 (writeOsc s c o)) d p) =
      respond .ack 0 (writeOsc (respond .ack 0 (writeOsc s d p)) c o) := by
  simp only [respond, writeOsc, OscFile.write_comm _ _ _ h]

/-- Settles O46: each command writes one record made of the rate and the record before, and a PLAY of the rate alone. -/
theorem controlBetweenTicks : Obligations.ControlBetweenTicks := by
  unfold Obligations.ControlBetweenTicks
  refine ⟨?commute, ?last, ?off⟩
  case commute =>
    intro i j c d s hi hj hne hwi hwj
    obtain ⟨g, hg, -⟩ := exec_addressed hi hwi
    obtain ⟨g', hg', -⟩ := exec_addressed hj hwj
    refine ⟨_, _, _, hg s, hg' _, hg' s, ?_⟩
    rw [hg]
    simp only [readOsc_respond, readOsc_writeOsc_ne _ _ hne, readOsc_writeOsc_ne _ _ hne.symm, respond_sr, writeOsc_sr]
    rw [writeOsc_ack_comm s _ _ hne]
  case last =>
    intro i j c s hi hPlay hwi hwj
    obtain ⟨g, hg, -⟩ := exec_addressed hi hwi
    obtain ⟨g', hg', hBlind⟩ := exec_addressed (channelAddressed_of_playsOn hPlay) hwj
    refine ⟨_, _, _, hg s, hg' _, hg' s, ?_⟩
    simp only [respond_osc, writeOsc_osc, OscFile.write_write_same, respond_sr, writeOsc_sr]
    rw [hBlind hPlay]
  case off =>
    intro i c s hPlay hw
    obtain ⟨g, hg, -⟩ := exec_addressed (channelAddressed_of_playsOn hPlay) hw
    refine ⟨_, _, hg s, exec_off c _, ?_⟩
    rw [readOsc_respond, readOsc_writeOsc_same]
    exact ⟨rfl, rfl, rfl, rfl⟩

/-! ### What cannot be heard (R18) -/

/-- Two machines no response can tell apart: they differ at most in the phase, step and waveform of silent channels. -/
structure SoundsLike (s t : State) : Prop where
  osc : ∀ c, SameSound (readOsc s c) (readOsc t c)
  sr : s.sr = t.sr
  fault : s.fault = t.fault
  inputs : s.inputs = t.inputs
  responses : s.responses = t.responses

theorem sameSound_refl (o : Oscillator) : SameSound o o := ⟨rfl, rfl, rfl, fun _ => ⟨rfl, rfl, rfl⟩⟩

theorem sameSound_silencedOsc (o p : Oscillator) : SameSound (silencedOsc o) (silencedOsc p) :=
  ⟨rfl, rfl, rfl, fun h => absurd rfl h⟩

theorem contribution_of_sameSound (rom : Rom) {o p : Oscillator} (h : SameSound o p) : contribution rom o = contribution rom p := by
  obtain ⟨hVol, -, -, hHeard⟩ := h
  by_cases h0 : o.vol = 0
  · rw [contribution_of_vol_eq_zero rom h0, contribution_of_vol_eq_zero rom (hVol ▸ h0)]
  · obtain ⟨hPhase, hStep, hWave⟩ := hHeard h0
    rw [contribution, contribution, advancedPhase, advancedPhase, hPhase, hStep, hWave, hVol]

/-- The timer step looks at the timer alone, so it takes the same course in both records. -/
theorem sameSound_steppedOsc {o p : Oscillator} (h : SameSound o p) : SameSound (steppedOsc o) (steppedOsc p) := by
  obtain ⟨hVol, hActive, hCount, hHeard⟩ := h
  have hTimer : (timerStep o).vol = (timerStep p).vol ∧ (timerStep o).durActive = (timerStep p).durActive ∧
      (timerStep o).durCount = (timerStep p).durCount := by
    cases hRuns : o.durActive with
    | false =>
      rw [timerStep_idle hRuns, timerStep_idle (hActive ▸ hRuns)]
      exact ⟨hVol, hActive, hCount⟩
    | true =>
      by_cases hOne : o.durCount = 1
      · rw [timerStep_expire hRuns hOne, timerStep_expire (hActive ▸ hRuns) (hCount ▸ hOne)]
        exact ⟨rfl, rfl, rfl⟩
      · rw [timerStep_count hRuns hOne, timerStep_count (hActive ▸ hRuns) (hCount ▸ hOne)]
        exact ⟨hVol, hActive, congrArg (· - 1) hCount⟩
  obtain ⟨hVol', hActive', hCount'⟩ := hTimer
  refine ⟨hVol', hActive', hCount', fun hSounds => ?_⟩
  obtain ⟨hPhase, hStep, hWave⟩ := hHeard fun h0 => hSounds (steppedOsc_silent_vol h0)
  simp [advancedPhase, hPhase, hStep, hWave]

namespace SoundsLike

variable {s t : State}

theorem withInputs (h : SoundsLike s t) (es : List HostInput) : SoundsLike { s with inputs := es } { t with inputs := es } :=
  ⟨h.osc, h.sr, h.fault, rfl, h.responses⟩

theorem respond (h : SoundsLike s t) (k : RspKind) (w : Word) : SoundsLike (respond k w s) (respond k w t) :=
  ⟨h.osc, h.sr, h.fault, h.inputs, by rw [respond_responses, respond_responses, h.responses]⟩

theorem raise (h : SoundsLike s t) (e : Fault) : SoundsLike (raise e s) (raise e t) := by
  cases e
  have hSet : SoundsLike (setFault s) (setFault t) := ⟨h.osc, h.sr, rfl, h.inputs, h.responses⟩
  exact hSet.respond .err 0

theorem writeOsc (h : SoundsLike s t) (c : Channel) {o p : Oscillator} (ho : SameSound o p) :
    SoundsLike (writeOsc s c o) (writeOsc t c p) := by
  refine ⟨fun d => ?_, h.sr, h.fault, h.inputs, h.responses⟩
  by_cases hd : d = c
  · subst hd
    rw [readOsc_writeOsc_same, readOsc_writeOsc_same]
    exact ho
  · rw [readOsc_writeOsc_ne s o hd, readOsc_writeOsc_ne t p hd]
    exact h.osc d

theorem nextSample_eq (h : SoundsLike s t) (rom : Rom) : nextSample rom s.osc = nextSample rom t.osc := by
  have hMix : mixAdd rom s.osc = mixAdd rom t.osc := by
    rw [mixAdd_eq_sum, mixAdd_eq_sum]
    exact congrArg List.sum (List.map_congr_left fun c _ => contribution_of_sameSound rom (h.osc c))
  rw [nextSample, nextSample, hMix]

theorem tickWith (h : SoundsLike s t) (rom : Rom) : SoundsLike (tickWith rom s) (tickWith rom t) := by
  refine ⟨fun c => ?_, h.sr, h.fault, h.inputs, ?_⟩
  · rw [readOsc_tickWith, readOsc_tickWith]
    exact sameSound_steppedOsc (h.osc c)
  · rw [tickWith_responses, tickWith_responses, h.responses, h.nextSample_eq]

theorem resetEvent (h : SoundsLike s t) (rate : Word) : SoundsLike (resetEvent rate s) (resetEvent rate t) := by
  refine ⟨fun c => ?_, rfl, rfl, h.inputs, h.responses⟩
  rw [readOsc_resetEvent, readOsc_resetEvent]
  exact sameSound_refl _

/-- A command goes on alike in both machines. -/
theorem exec (h : SoundsLike s t) (i : Instr) : ∃ s' t', exec i s = .next s' ∧ exec i t = .next t' ∧ SoundsLike s' t' := by
  obtain ⟨c, x, d, v, w, rfl⟩ | ⟨c, rfl⟩ | rfl | rfl := instr_cases i
  · cases hPitch : x.frequency with
    | some chz =>
      refine ⟨_, _, exec_selectPlay_of_some hPitch c d v w s, exec_selectPlay_of_some hPitch c d v w t, ?_⟩
      rw [doPlay, doPlay, h.sr]
      exact (h.writeOsc c (sameSound_refl _)).respond .ack 0
    | none => exact ⟨_, _, exec_selectPlay_of_none hPitch .., exec_selectPlay_of_none hPitch .., h.raise _⟩
  · exact ⟨_, _, exec_off c s, exec_off c t, (h.writeOsc c (sameSound_silencedOsc _ _)).respond .ack 0⟩
  · exact ⟨_, _, exec_nextTick s, exec_nextTick t, h.tickWith _⟩
  · refine ⟨_, _, exec_rdsr s, exec_rdsr t, ?_⟩
    rw [h.sr]
    exact h.respond .rate _

theorem accept (h : SoundsLike s t) {e : HostInput} {s' : State} (hAccept : accept e s = .next s') :
    ∃ t', accept e t = .next t' ∧ SoundsLike s' t' := by
  obtain ⟨cw, i, rfl, hDecode, hExec⟩ | ⟨cw, r, rfl, hDecode, rfl⟩ | ⟨rate, rfl, hRate, rfl⟩ := accept_cases hAccept
  · obtain ⟨u, t', hs, ht, hAlike⟩ := h.exec i
    cases hExec.symm.trans hs
    exact ⟨t', (acceptWord_of_ok hDecode t).trans ht, hAlike⟩
  · exact ⟨_, acceptWord_of_error hDecode t, h.raise _⟩
  · exact ⟨_, acceptReset_of_ne hRate t, h.resetEvent rate⟩

theorem step (h : SoundsLike s t) {s' : State} (hStep : step s = .next s') : ∃ t', step t = .next t' ∧ SoundsLike s' t' := by
  obtain ⟨hIdle, rfl⟩ | ⟨e, rest, hInputs, hAccept⟩ := step_cases hStep
  · exact ⟨t, step_idle (h.inputs ▸ hIdle), h⟩
  · rw [step_cons (h.inputs ▸ hInputs)]
    exact (h.withInputs rest).accept hAccept

theorem run (h : SoundsLike s t) {k : Nat} {s' : State} (hRun : Sys2Proof.core.run k s = .next s') :
    ∃ t', Sys2Proof.core.run k t = .next t' ∧ SoundsLike s' t' := by
  induction k generalizing s t with
  | zero => cases hRun; exact ⟨t, rfl, h⟩
  | succ k ih =>
    rw [run_succ] at hRun ⊢
    cases hStep : Machine.step s with
    | next u =>
      obtain ⟨u', hStep', hAlike⟩ := h.step hStep
      rw [hStep] at hRun
      rw [hStep']
      exact ih hAlike hRun
    | fault r => rw [hStep] at hRun; cases hRun
    | refused r => rw [hStep] at hRun; cases hRun

end SoundsLike

/-- Settles O47: OFF, reset and expiry write volume 0, and every step keeps two machines that sound alike so. -/
theorem silentFieldsAreNeverHeard : Obligations.SilentFieldsAreNeverHeard := by
  unfold Obligations.SilentFieldsAreNeverHeard
  refine ⟨?off, fun rate c s => ?reset, fun o hActive hStopped => ?expiry, ?runs⟩
  case off =>
    intro c s t h
    cases (exec_off c s).symm.trans h
    rw [readOsc_respond, readOsc_writeOsc_same]
    rfl
  case reset =>
    rw [readOsc_resetEvent]
    rfl
  case expiry =>
    by_cases hOne : o.durCount = 1
    · rw [steppedOsc_vol, timerStep_expire hActive hOne]
    · rw [steppedOsc_durActive, timerStep_count hActive hOne] at hStopped
      exact absurd hStopped (by simp [hActive])
  case runs =>
    intro k s t s' hOsc hSr hFault hInputs hResponses hRun
    obtain ⟨t', hRun', hAlike⟩ := SoundsLike.run ⟨hOsc, hSr, hFault, hInputs, hResponses⟩ hRun
    exact ⟨t', hRun', hAlike.responses.symm, hAlike.fault.symm⟩

/-! ### Contributions and their mix (R83, R86, R105, R106) -/

/-- Settles O28: the bounds of a contribution lie within those of a signed 16-bit number. -/
theorem contributionFits16Bits : Obligations.ContributionFits16Bits := by
  unfold Obligations.ContributionFits16Bits
  refine ⟨fun rom o => ?_, fun rom _ => contribution_of_vol_eq_zero rom⟩
  obtain ⟨hLow, hHigh⟩ := contribution_bounds rom o
  exact ⟨hLow, hHigh, BitVec.toInt_ofInt_eq_self (by decide) (by omega) (by omega)⟩

/-- One channel stepped and written back, its contribution added to the sum so far. -/
def stepChannel (rom : Rom) (p : OscFile × Int) (c : Channel) : OscFile × Int :=
  (p.1.write c (oscStep rom (p.1.read c)).1, p.2 + (oscStep rom (p.1.read c)).2)

/-- A channel not yet stepped is still as it was, so in a list without repetitions each is stepped from its record at the start. -/
theorem foldl_stepChannel (rom : Rom) {order : List Channel} (hOnce : order.Nodup) (f : OscFile) (n : Int) :
    (∀ c, (order.foldl (stepChannel rom) (f, n)).1.read c = if c ∈ order then steppedOsc (f.read c) else f.read c) ∧
    (order.foldl (stepChannel rom) (f, n)).2 = n + (order.map fun c => contribution rom (f.read c)).sum := by
  induction order generalizing f n with
  | nil => simp
  | cons d order ih =>
    obtain ⟨hNew, hOnce⟩ := List.nodup_cons.1 hOnce
    obtain ⟨hFile, hSum⟩ := ih hOnce (f.write d (steppedOsc (f.read d))) (n + contribution rom (f.read d))
    have hLater (c : Channel) (hc : c ∈ order) : (f.write d (steppedOsc (f.read d))).read c = f.read c :=
      OscFile.read_write_ne f _ fun h => hNew (h ▸ hc)
    constructor
    · intro c
      refine (hFile c).trans ?_
      by_cases hc : c ∈ order
      · rw [if_pos hc, if_pos (List.mem_cons_of_mem d hc), hLater c hc]
      · by_cases hd : c = d
        · subst hd
          rw [if_neg hc, if_pos List.mem_cons_self, OscFile.read_write_same]
        · rw [if_neg hc, if_neg (List.not_mem_cons_of_ne_of_not_mem hd hc), OscFile.read_write_ne f _ hd]
    · refine hSum.trans ?_
      rw [List.map_congr_left fun c hc => by rw [hLater c hc], List.map_cons, List.sum_cons, add_assoc]

/-- Settles O29: an order of the four channels steps each once, and the sum does not depend on the order of its terms. -/
theorem channelOrderIsUnobservable : Obligations.ChannelOrderIsUnobservable := by
  unfold Obligations.ChannelOrderIsUnobservable
  intro rom f order hOrder
  have hAll (c : Channel) : c ∈ order := hOrder.mem_iff.2 (by cases c <;> decide)
  obtain ⟨hFile, hSum⟩ := foldl_stepChannel rom (hOrder.nodup_iff.2 (by decide)) f 0
  refine Prod.ext (OscFile.ext_read fun c => ?_) ?_
  · rw [OscFile.read_map]
    exact (hFile c).trans (if_pos (hAll c))
  · rw [zero_add, sum_contribution_of_perm rom f hOrder] at hSum
    exact hSum

theorem rescale_mixAdd_bounds (rom : Rom) (f : OscFile) : -128 ≤ rescale (mixAdd rom f) ∧ rescale (mixAdd rom f) ≤ 126 := by
  obtain ⟨hLow, hHigh⟩ := mixAdd_bounds rom f
  rw [rescale_eq_div]
  omega

theorem nextSample_toInt_eq_rescale (rom : Rom) (f : OscFile) : (nextSample rom f).toInt = rescale (mixAdd rom f) := by
  obtain ⟨hLow, hHigh⟩ := rescale_mixAdd_bounds rom f
  rw [nextSample, sampleByte_clamp8_toInt, clamp8_of_mem hLow (by omega)]

/-- An oscillator at full volume. -/
def loudOsc : Oscillator := { Oscillator.silent with vol := 255 }

/-- Every channel at full volume. -/
def loudFile : OscFile := ⟨loudOsc, loudOsc, loudOsc, loudOsc⟩

/-- Channel 0 at full volume beside three silent ones. -/
def oneLoudFile : OscFile := ⟨loudOsc, .silent, .silent, .silent⟩

/-- Settles O39: the rescaled bounds of the mix sum lie within -128 to 126; wavetables of all 127 and all -128 reach them. -/
theorem fourChannelsNeverClip : Obligations.FourChannelsNeverClip := by
  unfold Obligations.FourChannelsNeverClip
  refine ⟨fun rom f => ?bounds, ⟨fun _ => 127, loudFile, by decide⟩, ⟨fun _ => -128, loudFile, by decide⟩, by decide, by decide⟩
  case bounds =>
    obtain ⟨hLow, hHigh⟩ := rescale_mixAdd_bounds rom f
    have hSample := nextSample_toInt_eq_rescale rom f
    refine ⟨hLow, hHigh, clamp8_of_mem hLow (by omega), fun h => ?sample, fun h => ?pcm⟩
    case sample =>
      rw [h, show (127 : Byte).toInt = 127 from rfl] at hSample
      omega
    case pcm =>
      have hPcm := toPcm_toNat (nextSample rom f)
      rw [h, show (255 : Byte).toNat = 255 from rfl] at hPcm
      omega

theorem oneLoudFile_others_silent (d : Channel) (h : d ≠ .ch0) : (oneLoudFile.read d).vol = 0 := by
  cases d with
  | ch0 => exact absurd rfl h
  | ch1 | ch2 | ch3 => rfl

/-- Settles O40: the mix sum is the contribution of the one channel, and a wavetable of all 127 or all -128 reaches its bounds. -/
theorem oneChannelSpansAQuarter : Obligations.OneChannelSpansAQuarter := by
  unfold Obligations.OneChannelSpansAQuarter
  refine ⟨fun rom f c hSilent => ?bounds, ⟨fun _ => 127, oneLoudFile, oneLoudFile_others_silent, rfl, by decide⟩,
    ⟨fun _ => -128, oneLoudFile, oneLoudFile_others_silent, rfl, by decide⟩, by decide, by decide⟩
  case bounds =>
    obtain ⟨hLow, hHigh⟩ := contribution_bounds rom (f.read c)
    rw [mixAdd_of_others_silent rom hSilent, rescale_eq_div]
    omega

/-! ### Notes, steps and pseudo-commands (R33, R62, R75, R76) -/

/-- Settles O15: the table has 109 entries, and a decoded command is well-formed. -/
theorem noteReadsExistUpTo108 : Obligations.NoteReadsExistUpTo108 := by
  unfold Obligations.NoteReadsExistUpTo108
  refine ⟨fun k => ⟨fun ⟨n, h⟩ => ?_, lutRead_of_le⟩, fun cw c k v w h => ?_, fun cw c k d v w h => ?_⟩
  · by_contra hk
    rw [lutRead_of_gt (by omega)] at h
    cases h
  · exact lutRead_of_le ((noteInTable_iff k).1 (wellFormed_of_decode h))
  · exact lutRead_of_le ((noteInTable_iff k).1 (wellFormed_of_decode h))

/-- In the exact domain the first quotient is below 25600, so nothing of R74 wraps. -/
theorem exactDomain_bounds {rate chz : Nat} (h : chz < min (2 ^ 24) (100 * rate)) :
    chz * 256 < 2 ^ 32 ∧ chz * 256 / rate * 256 < 2 ^ 32 ∧ chz * 256 / rate * 256 / 100 < 2 ^ 16 := by
  obtain ⟨hFreq, hRate⟩ := lt_min_iff.1 h
  have hQuotient : chz * 256 / rate < 25600 := Nat.div_lt_of_lt_mul (by omega)
  omega

theorem phaseStep_exact {rate chz : Word} (hRate : rate ≠ 0) (h : chz.toNat < min (2 ^ 24) (100 * rate.toNat)) :
    (phaseStep rate chz).toNat = chz.toNat * 256 / rate.toNat * 256 / 100 := by
  obtain ⟨hFirst, hSecond, hEnd⟩ := exactDomain_bounds h
  rw [phaseStep_toNat hRate, Nat.mod_eq_of_lt hFirst, Nat.mod_eq_of_lt hSecond, Nat.mod_eq_of_lt hEnd]

/-- Settles O17: the bounds of the exact domain; `2 ^ 24 * 256` wraps to 0; and a quotient by 256 or more is below `2 ^ 24`. -/
theorem phaseStepExactDomain : Obligations.PhaseStepExactDomain := by
  unfold Obligations.PhaseStepExactDomain
  refine ⟨fun rate chz hRate h => ⟨phaseStep_exact hRate h, exactDomain_bounds h⟩, fun rate hRate => ?wraps,
    fun rate chz hRate hLarge => ?slow, by decide⟩
  case wraps =>
    apply BitVec.eq_of_toNat_eq
    rw [phaseStep_toNat hRate]
    simp
  case slow =>
    by_contra hFast
    have hQuotient : chz.toNat * 256 % 2 ^ 32 / rate.toNat < 2 ^ 24 := Nat.div_lt_of_lt_mul (by omega)
    omega

/-- A frequency whose first quotient is 0 has step 0. -/
theorem phaseStep_of_lt {rate chz : Word} (h : chz.toNat * 256 < rate.toNat) : phaseStep rate chz = 0 := by
  have hRate : rate ≠ 0 := by rintro rfl; simp at h
  have hProduct : chz.toNat * 256 < 2 ^ 32 := h.trans rate.isLt
  apply BitVec.eq_of_toNat_eq
  rw [phaseStep_toNat hRate, Nat.mod_eq_of_lt hProduct, Nat.div_eq_of_lt h]
  rfl

/-- Settles O18: products and quotients are monotone where nothing wraps. -/
theorem phaseStepIsMonotone : Obligations.PhaseStepIsMonotone := by
  unfold Obligations.PhaseStepIsMonotone
  refine ⟨fun rate => phaseStep_rest, fun rate chz => phaseStep_of_lt, fun rate chz chz' hLe h => ?monotone, by decide, by decide⟩
  case monotone =>
    have hRate : rate ≠ 0 := by rintro rfl; simp at h
    rw [phaseStep_exact hRate h, phaseStep_exact hRate (hLe.trans_lt h)]
    gcongr

/-- Settles O49: the expansion by its cases; 100 times the largest frequency admitted fits the word. -/
theorem pseudoCommandsExpand : Obligations.PseudoCommandsExpand := by
  unfold Obligations.PseudoCommandsExpand
  refine ⟨fun rate c hz d v w => ⟨?refused, fun hMax => ⟨BitVec.ofNat 32 (hz * 100), ?fits, if_pos hMax⟩⟩,
    fun _ _ _ _ _ _ => rfl, fun _ _ _ _ _ _ _ => ⟨rfl, rfl, rfl, rfl⟩, fun _ _ => rfl⟩
  case refused =>
    simp [Pseudo.expand]
  case fits =>
    rw [BitVec.toNat_ofNat, Nat.mod_eq_of_lt (by omega)]

end Sys2Proof.Machine
end
